-- ==== Sys2Proof/Word.lean ====
section
/-! DEFINITION. The widths of the block: a byte (00_scope.md R6), the shift register (10_state.md R12),
and the two index ranges of its address spaces (20_memory.md R25, R26). -/

namespace Sys2Proof

/-- A byte: 8 bits, an unsigned value 0..255 (R6). -/
abbrev Byte := BitVec 8

/-- A value of the 24-bit shift register `LFSR` (R12; `LFSR_WIDTH` of R5). -/
abbrev Lfsr := BitVec 24

/-- An address of `REG` or of `NV`: 0..99 (R25; `REG_BYTES` of R5). No other address exists, and the host supplies
none (R32), so an access outside the two spaces cannot be written down. -/
abbrev Addr := Fin 100

/-- A slot of the registry: 0..19 (R14, R26; `REG_CAPACITY` of R5). -/
abbrev SlotIdx := Fin 20

/-- A byte of a slot: 0..4 (R15, R90; `ENTRY_BYTES` of R5). -/
abbrev SlotOff := Fin 5

/-- The result of `count_of`: 0..20 (R73). -/
abbrev Count := Fin 21

end Sys2Proof
end

