-- ==== Sys2Proof/Config.lean ====
section
/-! DEFINITION. The parameters of 00_scope.md R5: the fixed ones as named constants, the OPEN one and the one free
image of the spec as constants without a body, so that no claim can rest on a value of theirs. The literals are
unaudited (91_not_in_source.md N16): UNVERIFIED, log 17. -/

namespace Sys2Proof.Config

/-- `TAP_LO` (R5, R59). -/
abbrev tapLo : Nat := 18

/-- `TAP_HI` (R5, R59). -/
abbrev tapHi : Nat := 23

/-- `SCR_MAXLEN`: the largest data length of one SCR or DSC (R5; the spec's decision D6). -/
abbrev scrMaxLen : Nat := 20

/-- `ID_BYTES` (R5, R23). -/
abbrev idBytes : Nat := 4

/-- `REG_CAPACITY` (R5); `SlotIdx` is its index range. -/
abbrev regCapacity : Nat := 20

/-- `TERMINATOR`: the byte that marks an empty slot (R5, R16). -/
def terminator : Byte := 0xFF

/-- `TYPE_DEFAULT`: OPEN, one byte, "a fixed default" whose value is not given (R5, D10, U1). A constant without a
body: a claim holds for every value of it (log 1). -/
opaque typeDefault : Byte

/-- What byte `a` of the durable image holds before the first completed Persist: "unspecified; any 100 bytes"
(R22, R107, U5). A constant without a body (log 2). -/
opaque nvUnwritten : Addr → Byte

end Sys2Proof.Config
end

