-- ==== Sys2Proof/Syntax.lean ====
section
/-! DEFINITION. The seven commands of 30_encoding.md R44 (one constructor per row of spec/opcode_table.json) and the
names of the statuses of R48. -/

namespace Sys2Proof

/-- A decoded command. The length bytes `n` and `idlen` are the lengths of the lists (R41, R42). -/
inductive Instr where
  /-- SCR, format S, opcode 0x01 (R41, R62). -/
  | scr (seed0 seed1 seed2 : Byte) (data : List Byte)
  /-- DSC, format S, opcode 0x02 (R41, R63). -/
  | dsc (seed0 seed1 seed2 : Byte) (data : List Byte)
  /-- RWR, format I, opcode 0x10 (R42, R76). -/
  | rwr (id : List Byte)
  /-- RER, format I, opcode 0x11 (R42, R78). -/
  | rer (id : List Byte)
  /-- RPO, format I, opcode 0x12 (R42, R80). -/
  | rpo (id : List Byte)
  /-- RCT, format N, opcode 0x13 (R43, R81). -/
  | rct
  /-- RRD, format X, opcode 0x14 (R43, R87). -/
  | rrd (index : Byte)
deriving DecidableEq, Repr

/-- The status of a response (R48). Its code is `Machine.statusCode`. -/
inductive Status where
  | ok
  | alreadyPresent
  | notFound
  | error
  | illegalOpcode
  | malformed
  | badLength
  | badIndex
deriving DecidableEq, Repr

end Sys2Proof
end

