-- ==== Sys2Proof/WellFormed.lean ====
section
/-! DEFINITION. Which terms of `Instr` stand for a command: those some byte list decodes to (30_encoding.md R45). -/

namespace Sys2Proof

/-- SCR and DSC carry at most `SCR_MAXLEN` data bytes (R41, R45); an I-format command carries as many identifier
bytes as its one length byte can say, 4 or not (R42, R50); RCT has no operand; every index byte of RRD decodes, the
ones above 19 too (R45, R87). -/
def Instr.wellFormed : Instr → Bool
  | .scr _ _ _ data => decide (data.length ≤ Config.scrMaxLen)
  | .dsc _ _ _ data => decide (data.length ≤ Config.scrMaxLen)
  | .rwr id => decide (id.length ≤ 255)
  | .rer id => decide (id.length ≤ 255)
  | .rpo id => decide (id.length ≤ 255)
  | .rct => true
  | .rrd _ => true

end Sys2Proof
end

