-- ==== Sys2Proof/Decode.lean ====
section
/-! DEFINITION. The decoder of 30_encoding.md R45, total on byte lists, which rejects by status; the encoder of the
same formats (R41 to R43); and the reading of a word of spec/opcode_table.json. -/

namespace Sys2Proof

/-! ### The opcode map (R44) -/

abbrev opScr : Byte := 0x01
abbrev opDsc : Byte := 0x02
abbrev opRwr : Byte := 0x10
abbrev opRer : Byte := 0x11
abbrev opRpo : Byte := 0x12
abbrev opRct : Byte := 0x13
abbrev opRrd : Byte := 0x14

/-! ### Decoding (R45) -/

/-- Format S after its opcode: seed0, seed1, seed2, n, data (R41, R45). The length is checked before the bound. -/
def decodeS (mk : Byte → Byte → Byte → List Byte → Instr) : List Byte → Except Status Instr
  | seed0 :: seed1 :: seed2 :: n :: data =>
    if data.length ≠ n.toNat then .error .malformed
    else if n.toNat > Config.scrMaxLen then .error .badLength
    else .ok (mk seed0 seed1 seed2 data)
  | _ => .error .malformed

/-- Format I after its opcode: idlen, id (R42, R45). An `idlen` other than 4 decodes (R50). -/
def decodeI (mk : List Byte → Instr) : List Byte → Except Status Instr
  | idlen :: id => if id.length ≠ idlen.toNat then .error .malformed else .ok (mk id)
  | [] => .error .malformed

/-- Format N after its opcode: nothing (R43, R45). -/
def decodeN (i : Instr) : List Byte → Except Status Instr
  | [] => .ok i
  | _ :: _ => .error .malformed

/-- Format X after its opcode: one index byte (R43, R45). -/
def decodeX (mk : Byte → Instr) : List Byte → Except Status Instr
  | [index] => .ok (mk index)
  | _ => .error .malformed

/-- `decode(C)` of R45: every byte list is one command or is rejected with a named status. The opcode is byte 0 and
nothing else selects the operation (R44). -/
def decode : List Byte → Except Status Instr
  | [] => .error .malformed
  | op :: rest =>
    if op = opScr then decodeS .scr rest
    else if op = opDsc then decodeS .dsc rest
    else if op = opRwr then decodeI .rwr rest
    else if op = opRer then decodeI .rer rest
    else if op = opRpo then decodeI .rpo rest
    else if op = opRct then decodeN .rct rest
    else if op = opRrd then decodeX .rrd rest
    else .error .illegalOpcode

/-! ### Encoding (R41 to R44, R53) -/

/-- A length byte (`n` of R41, `idlen` of R42). -/
def lengthByte (l : List Byte) : Byte := BitVec.ofNat 8 l.length

/-- The byte list of a command. -/
def encode : Instr → List Byte
  | .scr seed0 seed1 seed2 data => opScr :: seed0 :: seed1 :: seed2 :: lengthByte data :: data
  | .dsc seed0 seed1 seed2 data => opDsc :: seed0 :: seed1 :: seed2 :: lengthByte data :: data
  | .rwr id => opRwr :: lengthByte id :: id
  | .rer id => opRer :: lengthByte id :: id
  | .rpo id => opRpo :: lengthByte id :: id
  | .rct => [opRct]
  | .rrd index => [opRrd, index]

/-! ### Words of the opcode table -/

/-- Byte `i` of a table word: bits `8i+7 .. 8i`. -/
def wordByte (w i : Nat) : Byte := BitVec.ofNat 8 (w / 2 ^ (8 * i))

/-- How many bytes the command in a table word has, told by its opcode and its one length byte (R46); 1 for an
opcode the map does not have. -/
def wordLength (w : Nat) : Nat :=
  let op := wordByte w 0
  if op = opScr ∨ op = opDsc then 5 + (wordByte w 4).toNat
  else if op = opRwr ∨ op = opRer ∨ op = opRpo then 2 + (wordByte w 1).toNat
  else if op = opRrd then 2
  else 1

/-- The byte list of a table word of `nbits` bits: byte 0 is its lowest 8 bits, the bits above `nbits` are 0, and the
list is as long as R46 says, unless the word has a bit set above that length (log 15). -/
def tableBytes (nbits w : Nat) : List Byte :=
  let v := w % 2 ^ nbits
  let len := if v < 2 ^ (8 * wordLength v) then wordLength v else (nbits + 7) / 8
  (List.range len).map (wordByte v)

/-- The command the decoder reads from a word of the opcode table. -/
def decodeTableWord (nbits w : Nat) : Option Instr :=
  match decode (tableBytes nbits w) with
  | .ok i => some i
  | .error _ => none

end Sys2Proof
end

