-- ==== Sys2Proof/Machine/State.lean ====
section
/-! DEFINITION. The state of the block (10_state.md R9: `LFSR`, `REG`, `NV`, `COLD`), what stands at its interface
(R21, R121: the events still to come and the responses handed back), the ways a step can stop, and the state after
the first boot (R22, R107). -/

namespace Sys2Proof.Machine

/-- One of the two address spaces of 20_memory.md R25, as a list of (address, byte) cells in the canonical form
`Memory.wf`. What an unlisted address reads as is said by `regRead` and `nvRead`. -/
abbrev Memory := List Host.Cell

/-- The five bytes of a slot (R15): "the four identifier bytes first, then the type byte". -/
structure Entry where
  id0 : Byte
  id1 : Byte
  id2 : Byte
  id3 : Byte
  type : Byte
deriving DecidableEq, Repr

/-- Where inside a command a reset falls (70_reset_and_hazards.md R109). -/
inductive CutPoint where
  /-- Before Persist began, or inside a command that has no Persist to do (R109). -/
  | beforePersist
  /-- Inside Persist: `NV` afterwards is any 100 bytes, the ones drawn here (R110, U6; log 5). -/
  | insidePersist (nv : Vector Byte 100)
  /-- After Persist has completed and before the response is handed back. DEDUCED (log 9). -/
  | afterPersist
deriving DecidableEq, Repr

/-- One event of a run (R121): a command, or a reset with its inputs. `cold` is the backend's `COLD` at that reset
(R19, R108; log 6); `lfsr` is the draw of "LFSR <- any 24-bit value" (R105, U4; log 4). -/
inductive Event where
  /-- The host hands a command over, whole (R40). -/
  | command (bytes : List Byte)
  /-- A reset while the block is idle (R104, R105). -/
  | reset (cold : Bool) (lfsr : Lfsr)
  /-- The host hands a command over and a reset falls inside it (R109). -/
  | cut (bytes : List Byte) (point : CutPoint) (cold : Bool) (lfsr : Lfsr)
deriving DecidableEq, Repr

/-- The machine's faults: none. The block has no fatal state and no panic (60_exceptions.md R91, R98): every abnormal
outcome is a status in a response, which is a next state. -/
inductive Fault where
deriving DecidableEq, Repr

/-- Why a step gives no next state. -/
inductive Refusal where
  /-- The arm of `exec` of an instruction that has no meaning yet. Safe. No arm answers it. -/
  | notModelled (mnemonic : String)
  /-- Raised by RWR, RER, RPO and RCT when the image is not well-formed (R72, U3; log 10). Safe: the spec gives the
  command no meaning there. -/
  | illFormedRegistry
  /-- Raised by RWR of a four-byte identifier that begins with 0xFF, on a well-formed registry that is not full
  (R77, U2; log 11). Safe: the spec gives the command no meaning there. -/
  | terminatorIdentifier
deriving DecidableEq, Repr

/-- What a mutating command (RWR, RER) is about to do, decided from the registry alone, before anything is written. -/
inductive Plan where
  /-- Answer this status and change nothing (R95). -/
  | answer (status : Status)
  /-- The command has no meaning here. -/
  | refuse (reason : Refusal)
  /-- Take this working image, Persist it and answer OK (R36). -/
  | commit (reg : Memory)
deriving DecidableEq, Repr

/-- The state. The first four fields are the spec's (R9); the last two are the model's own (log 7). -/
structure State where
  /-- `LFSR`, 24 bits (R12). -/
  lfsr : Lfsr
  /-- `REG[0..99]`, the working image (R14). -/
  reg : Memory
  /-- `NV[0..99]`, the durable image (R18). -/
  nv : Memory
  /-- `COLD`, the backend's indication, sampled by reset only (R19). -/
  cold : Bool
  /-- The events that are still to reach the block, in order (R21, R121). -/
  events : List Event
  /-- The responses handed back so far, oldest first (R40, R47, R121). -/
  responses : List (List Byte)
deriving DecidableEq, Repr

/-! ### One update per field -/

def State.setLfsr (s : State) (v : Lfsr) : State := { s with lfsr := v }
def State.setReg (s : State) (m : Memory) : State := { s with reg := m }
def State.setNv (s : State) (m : Memory) : State := { s with nv := m }
def State.setCold (s : State) (b : Bool) : State := { s with cold := b }
def State.setEvents (s : State) (es : List Event) : State := { s with events := es }
def State.addResponse (s : State) (r : List Byte) : State := { s with responses := s.responses ++ [r] }

/-- The block right after its first boot, which is cold (R107): the registry is empty (no byte listed, each reads
0xFF, R22), nothing has been written to `NV` (each byte reads as the free `Config.nvUnwritten`, U5), `COLD` is 1
(R22). `LFSR` is unspecified (R22); 0 is DESIGN CHOICE (log 3). Nothing has been asked or answered. -/
def State.reset : State :=
  { lfsr := 0, reg := [], nv := [], cold := true, events := [], responses := [] }

end Sys2Proof.Machine
end

