-- ==== Sys2Proof/Machine/Flags.lean ====
section
/-! DEFINITION. The block has no flags and no condition codes: "the status of a command is in its response and nowhere
else" (10_state.md R13). What stands in their place is the status byte of a response. -/

namespace Sys2Proof.Machine

/-- The status codes of 30_encoding.md R48. -/
def statusCode : Status → Byte
  | .ok => 0x00
  | .alreadyPresent => 0x01
  | .notFound => 0x02
  | .error => 0x03
  | .illegalOpcode => 0xE0
  | .malformed => 0xE1
  | .badLength => 0xE2
  | .badIndex => 0xE3

end Sys2Proof.Machine
end

