-- ==== Sys2Proof/Machine/Operands.lean ====
section
/-! DEFINITION. The operand forms (30_encoding.md R52): the three seed bytes, the slot index, and the address a slot
index and an offset give (41_registry.md R90). An identifier and a data list are used as they stand (R31). -/

namespace Sys2Proof.Machine

/-- `lfsr_init` of 40_scrambler.md R58: the seed bytes loaded low byte first (20_memory.md R28). -/
def lfsrInit (seed0 seed1 seed2 : Byte) : Lfsr :=
  (seed2.setWidth 24 <<< 16) ||| (seed1.setWidth 24 <<< 8) ||| seed0.setWidth 24

/-- `EA = 5*k + off` (R90): byte `off` of slot `k` (R26). -/
def slotAddr (k : SlotIdx) (off : SlotOff) : Addr := ⟨5 * k.val + off.val, by omega⟩

/-- The index operand of RRD, "an unsigned byte checked against 19 before use" (R90, R87). -/
def indexOperand (index : Byte) : Option SlotIdx :=
  if h : index.toNat < 20 then some ⟨index.toNat, h⟩ else none

end Sys2Proof.Machine
end

