-- ==== Sys2Proof/Machine/Ops.lean ====
section
/-! DEFINITION. The operations the commands share: the two memories and their canonical form, slots, the lookup,
Persist, the response and `raise`, the two ways a mutating command ends, and reset. -/

namespace Sys2Proof.Machine

/-! ### Cells -/

/-- The byte listed for address `a`, if there is one. -/
def cellLookup : Memory → Nat → Option Byte
  | [], _ => none
  | (b, v) :: m, a => if b = a then some v else cellLookup m a

/-- List byte `v` at address `a`, in address order. -/
def cellStore : Memory → Nat → Byte → Memory
  | [], a, v => [(a, v)]
  | (b, w) :: m, a, v =>
    if a < b then (a, v) :: (b, w) :: m
    else if a = b then (a, v) :: m
    else (b, w) :: cellStore m a v

/-- Take address `a` out of the list. -/
def cellErase : Memory → Nat → Memory
  | [], _ => []
  | (b, w) :: m, a => if b = a then cellErase m a else (b, w) :: cellErase m a

/-- Addresses strictly rising. -/
def Memory.rising : Memory → Bool
  | [] => true
  | [_] => true
  | (a, _) :: (b, w) :: m => decide (a < b) && Memory.rising ((b, w) :: m)

/-- The canonical form of a memory whose unlisted addresses read as `blank` (`none`: as no fixed byte): addresses
strictly rising, all of them in 0..99 (20_memory.md R25), no cell equal to `blank`. -/
def Memory.wf (blank : Option Byte) (m : Memory) : Bool :=
  m.rising && m.all (fun c => decide (c.1 < 100) && decide (some c.2 ≠ blank))

/-- What an unlisted address of `REG` reads as: the terminator, its reset contents (10_state.md R22). -/
def regBlank : Option Byte := some Config.terminator

/-- What an unlisted address of `NV` reads as: no fixed byte (R22, U5; log 2). -/
def nvBlank : Option Byte := none

/-! ### REG and NV, byte by byte -/

/-- `REG[a]` (R14). -/
def regRead (m : Memory) (a : Addr) : Byte := (cellLookup m a.val).getD Config.terminator

/-- `REG[a] <- v` (00_scope.md R7). -/
def regWrite (m : Memory) (a : Addr) (v : Byte) : Memory :=
  if v = Config.terminator then cellErase m a.val else cellStore m a.val v

/-- `NV[a]` (R18). A byte that no Persist has written is free (U5). -/
def nvRead (m : Memory) (a : Addr) : Byte := (cellLookup m a.val).getD (Config.nvUnwritten a)

/-- `REG` holding the 100 bytes `f`. -/
def regImage (f : Addr → Byte) : Memory :=
  (List.finRange 100).filterMap fun a => if f a = Config.terminator then none else some (a.val, f a)

/-- `NV` holding the 100 bytes `f`. -/
def nvImage (f : Addr → Byte) : Memory := (List.finRange 100).map fun a => (a.val, f a)

/-! ### Slots -/

/-- `Slot(k)` (R7, R15). -/
def readSlot (m : Memory) (k : SlotIdx) : Entry :=
  { id0 := regRead m (slotAddr k 0), id1 := regRead m (slotAddr k 1), id2 := regRead m (slotAddr k 2),
    id3 := regRead m (slotAddr k 3), type := regRead m (slotAddr k 4) }

/-- `MemWrite(5*k, 5, e)` (R7), ascending. -/
def writeSlot (m : Memory) (k : SlotIdx) (e : Entry) : Memory :=
  regWrite (regWrite (regWrite (regWrite (regWrite m (slotAddr k 0) e.id0) (slotAddr k 1) e.id1)
    (slotAddr k 2) e.id2) (slotAddr k 3) e.id3) (slotAddr k 4) e.type

/-- The identifier bytes of an entry, `id[0]` first (R15). -/
def entryId (e : Entry) : List Byte := [e.id0, e.id1, e.id2, e.id3]

/-- The bytes of an entry in address order (R15), the payload of RRD (30_encoding.md R49). -/
def entryBytes (e : Entry) : List Byte := [e.id0, e.id1, e.id2, e.id3, e.type]

/-- A slot filled with the terminator (41_registry.md R78). -/
def blankEntry : Entry :=
  { id0 := Config.terminator, id1 := Config.terminator, id2 := Config.terminator, id3 := Config.terminator,
    type := Config.terminator }

/-- Slot `k` is empty: its first byte is the terminator, and nothing else is tested (10_state.md R16). -/
def slotEmpty (m : Memory) (k : SlotIdx) : Bool := decide (regRead m (slotAddr k 0) = Config.terminator)

/-! ### The lookup (R73 to R75) -/

/-- The first terminator slot. -/
def firstEmpty (m : Memory) : Option SlotIdx := (List.finRange 20).find? (slotEmpty m)

/-- `count_of` (R73): the least `k` whose slot is empty, 20 when there is none. -/
def countOf (m : Memory) : Count :=
  match firstEmpty m with
  | some k => k.castSucc
  | none => 20

/-- `match(k, id)` (R75): the four identifier bytes, byte by byte; the type byte takes no part. A list of another
length matches no slot. -/
def slotMatches (m : Memory) (id : List Byte) (k : SlotIdx) : Bool := decide (entryId (readSlot m k) = id)

/-- `find(id)` (R74): the least index of the valid prefix that matches. -/
def findId (m : Memory) (id : List Byte) : Option SlotIdx :=
  (List.finRange 20).find? fun k => decide (k.val < (countOf m).val) && slotMatches m id k

/-- `WF(REG)` (R17), as a test: from the first empty slot on, every byte is the terminator. That the slots before it
are occupied is `count_of`. -/
def imageWF (m : Memory) : Bool :=
  let c := countOf m
  (List.finRange 100).all fun a => decide (a.val < 5 * c.val) || decide (regRead m a = Config.terminator)

/-! ### Compaction (R78, R79) -/

/-- `for k = p to c-2: Slot(k) <- Slot(k+1)`, ascending. -/
def shiftSlots (m : Memory) (p : SlotIdx) (c : Count) : Memory :=
  (List.finRange 19).foldl
    (fun r k => if p.val ≤ k.val ∧ k.val + 1 < c.val then writeSlot r k.castSucc (readSlot r k.succ) else r) m

/-- The moves of RER and the blanking of the vacated last slot `c-1`. -/
def compact (m : Memory) (p : SlotIdx) (c : Count) : Memory :=
  writeSlot (shiftSlots m p c) ⟨c.val - 1, by omega⟩ blankEntry

/-! ### Responses -/

/-- `respond(st, payload)` (R7, R47): the host receives `[st] ++ payload`. -/
def respond (st : Status) (payload : List Byte) (s : State) : State := s.addResponse (statusCode st :: payload)

/-- `raise st` (R7, 60_exceptions.md R91): respond with that status and an empty payload, and stop. Nothing is saved,
no mode changes, no control is transferred (R97), and the block takes the next command as after an OK. This is all
that the block has of an exception, and there is nothing to return from. -/
def raise (st : Status) (s : State) : Host.Outcome State Fault Refusal := .next (respond st [] s)

/-! ### Persist and the end of a mutating command -/

/-- `Persist()` (20_memory.md R36): the durable region is erased and rewritten, whole, from the working image. -/
def persist (s : State) : State := s.setNv (nvImage (regRead s.reg))

/-- The end of RWR and RER: a raise changes nothing (R95); on the OK path the working image is changed, then persisted,
then the response is handed back (R36, R37). -/
def finishPlan (p : Plan) (s : State) : Host.Outcome State Fault Refusal :=
  match p with
  | .answer st => raise st s
  | .refuse r => .refused r
  | .commit m => .next (respond .ok [] (persist (s.setReg m)))

/-! ### Reset -/

/-- `Reset(COLD)` (70_reset_and_hazards.md R105): created empty, or loaded by a straight copy of `NV`, which is not
checked and not written (R106). `lfsr` is the draw of "any 24-bit value". -/
def resetBlock (lfsr : Lfsr) (s : State) : State :=
  (s.setReg (regImage (if s.cold then fun _ => Config.terminator else nvRead s.nv))).setLfsr lfsr

end Sys2Proof.Machine
end

