-- ==== Sys2Proof/Machine/Registry.lean ====
section
/-! DEFINITION. The sensor registry (41_registry.md): the commands RWR, RER, RPO, RCT and RRD. RWR and RER first decide
what to do from the registry alone (a `Plan`), because a reset that falls inside them acts on that decision
(70_reset_and_hazards.md R109). -/

namespace Sys2Proof.Machine

/-- RWR up to its first write (R76), appending with the type byte `td`. The checks stand in the order of R76: length,
duplicate, capacity; then the precondition of R77. Refused on an ill-formed image (R72; log 10). -/
def rwrPlan (td : Byte) (id : List Byte) (m : Memory) : Plan :=
  if imageWF m then
    match id with
    | [id0, id1, id2, id3] =>
      if (findId m [id0, id1, id2, id3]).isSome then .answer .alreadyPresent
      else
        match firstEmpty m with
        | none => .answer .error
        | some c =>
          if id0 = Config.terminator then .refuse .terminatorIdentifier
          else .commit (writeSlot m c { id0 := id0, id1 := id1, id2 := id2, id3 := id3, type := td })
    | _ => .answer .error
  else .refuse .illFormedRegistry

/-- RER up to its first write (R78). Refused on an ill-formed image (R72; log 10). -/
def rerPlan (id : List Byte) (m : Memory) : Plan :=
  if imageWF m then
    if id.length ≠ Config.idBytes then .answer .error
    else
      match findId m id with
      | none => .answer .notFound
      | some p => .commit (compact m p (countOf m))
  else .refuse .illFormedRegistry

/-- RWR, write (R76, R77). -/
def execRwr (id : List Byte) (s : State) : Host.Outcome State Fault Refusal :=
  finishPlan (rwrPlan Config.typeDefault id s.reg) s

/-- RER, erase with compaction (R78, R79). -/
def execRer (id : List Byte) (s : State) : Host.Outcome State Fault Refusal :=
  finishPlan (rerPlan id s.reg) s

/-- RPO, position of an identifier (R80). Refused on an ill-formed image (R72; log 10). -/
def execRpo (id : List Byte) (s : State) : Host.Outcome State Fault Refusal :=
  if imageWF s.reg then
    if id.length ≠ Config.idBytes then raise .notFound s
    else
      match findId s.reg id with
      | none => raise .notFound s
      | some p => .next (respond .ok [BitVec.ofNat 8 p.val] s)
  else .refused .illFormedRegistry

/-- RCT, count (R81). Refused on an ill-formed image (R72; log 10). -/
def execRct (s : State) : Host.Outcome State Fault Refusal :=
  if imageWF s.reg then .next (respond .ok [BitVec.ofNat 8 (countOf s.reg).val] s)
  else .refused .illFormedRegistry

/-- RRD, read a slot (R87): raw bytes, defined on every image (U3). -/
def execRrd (index : Byte) (s : State) : Host.Outcome State Fault Refusal :=
  match indexOperand index with
  | none => raise .badIndex s
  | some k => .next (respond .ok (entryBytes (readSlot s.reg k)) s)

end Sys2Proof.Machine
end

