-- ==== Sys2Proof/Machine/Scrambler.lean ====
section
/-! DEFINITION. The scrambler and descrambler (40_scrambler.md): the transform as four nested functions and the
commands SCR and DSC. -/

namespace Sys2Proof.Machine

/-- `mode` of R59. -/
inductive ScrMode where
  | scramble
  | descramble
deriving DecidableEq, Repr

/-- The bit shifted in: the scrambler feeds back what it sends, the descrambler what it receives (R59). -/
def insertedBit (mode : ScrMode) (input output : Bool) : Bool :=
  match mode with
  | .scramble => output
  | .descramble => input

/-- `bit_step` (R59). The feedback is read before the shift; the bit shifted out of position 23 is lost. -/
def bitStep (mode : ScrMode) (s : Lfsr) (b : Bool) : Lfsr × Bool :=
  let f := Bool.xor (s.getLsbD Config.tapLo) (s.getLsbD Config.tapHi)
  let o := Bool.xor b f
  ((s <<< 1) ||| (BitVec.ofBool (insertedBit mode b o)).setWidth 24, o)

/-- The bits of `B` at the positions `js`, in that order, each output bit put at its input bit's position (R60, R29). -/
def bitsStep (mode : ScrMode) (B : Byte) : List Nat → Lfsr → Byte → Lfsr × Byte
  | [], s, out => (s, out)
  | j :: js, s, out =>
    let r := bitStep mode s (B.getLsbD j)
    bitsStep mode B js r.1 (out ||| ((BitVec.ofBool r.2).setWidth 8 <<< j))

/-- `byte_step` (R60): `for j = 7 downto 0`. -/
def byteStep (mode : ScrMode) (s : Lfsr) (B : Byte) : Lfsr × Byte := bitsStep mode B [7, 6, 5, 4, 3, 2, 1, 0] s 0

/-- The loop of R61 from the register value `s`: the register at the end and the output bytes. The register is carried
from byte to byte (R60). -/
def bytesStep (mode : ScrMode) : Lfsr → List Byte → Lfsr × List Byte
  | s, [] => (s, [])
  | s, B :: data =>
    let r := byteStep mode s B
    let t := bytesStep mode r.1 data
    (t.1, r.2 :: t.2)

/-- `xform` (R61). -/
def xform (mode : ScrMode) (seed0 seed1 seed2 : Byte) (data : List Byte) : List Byte :=
  (bytesStep mode (lfsrInit seed0 seed1 seed2) data).2

/-- `LFSR` after a message (R64). -/
def xformLfsr (mode : ScrMode) (seed0 seed1 seed2 : Byte) (data : List Byte) : Lfsr :=
  (bytesStep mode (lfsrInit seed0 seed1 seed2) data).1

/-- What SCR and DSC share: `LFSR` is loaded and run, the output is the payload of an OK response (R62, R63). -/
def runXform (mode : ScrMode) (seed0 seed1 seed2 : Byte) (data : List Byte) (s : State) :
    Host.Outcome State Fault Refusal :=
  .next (respond .ok (xform mode seed0 seed1 seed2 data) (s.setLfsr (xformLfsr mode seed0 seed1 seed2 data)))

/-- SCR (R62). MALFORMED and BAD_LENGTH have been raised by decoding (R45). -/
def execScr (seed0 seed1 seed2 : Byte) (data : List Byte) (s : State) : Host.Outcome State Fault Refusal :=
  runXform .scramble seed0 seed1 seed2 data s

/-- DSC (R63). MALFORMED and BAD_LENGTH have been raised by decoding (R45). -/
def execDsc (seed0 seed1 seed2 : Byte) (data : List Byte) (s : State) : Host.Outcome State Fault Refusal :=
  runXform .descramble seed0 seed1 seed2 data s

end Sys2Proof.Machine
end

