-- ==== Sys2Proof/Machine/Dispatch.lean ====
section
/-! DEFINITION. One arm per command. -/

namespace Sys2Proof.Machine

def exec (i : Instr) (s : State) : Host.Outcome State Fault Refusal :=
  match i with
  | .scr seed0 seed1 seed2 data => Sys2Proof.Machine.execScr seed0 seed1 seed2 data s
  | .dsc seed0 seed1 seed2 data => Sys2Proof.Machine.execDsc seed0 seed1 seed2 data s
  | .rwr id => Sys2Proof.Machine.execRwr id s
  | .rer id => Sys2Proof.Machine.execRer id s
  | .rpo id => Sys2Proof.Machine.execRpo id s
  | .rct => Sys2Proof.Machine.execRct s
  | .rrd index => Sys2Proof.Machine.execRrd index s

end Sys2Proof.Machine
end

