-- ==== Sys2Proof/Machine/Events.lean ====
section
/-! DEFINITION. What each event of a run does (70_reset_and_hazards.md R121): a command runs to its one response, a
reset rebuilds the working image, and a reset that falls inside a command does what R109 and R110 say. -/

namespace Sys2Proof.Machine

/-- A command that is not cut short: a byte list that decodes runs, any other is answered with its status
(30_encoding.md R45, R50; 60_exceptions.md R95). -/
def runCommand (bytes : List Byte) (s : State) : Host.Outcome State Fault Refusal :=
  match decode bytes with
  | .error st => raise st s
  | .ok i => exec i s

/-- What a command is about to do to the registry, for the two that can reach Persist (R36, R109). -/
def persistPlan (i : Instr) (m : Memory) : Option Plan :=
  match i with
  | .scr _ _ _ _ => none
  | .dsc _ _ _ _ => none
  | .rwr id => some (rwrPlan Config.typeDefault id m)
  | .rer id => some (rerPlan id m)
  | .rpo _ => none
  | .rct => none
  | .rrd _ => none

/-- The same for a byte list; one that does not decode reaches no Persist. -/
def commandPlan (bytes : List Byte) (m : Memory) : Option Plan :=
  match decode bytes with
  | .error _ => none
  | .ok i => persistPlan i m

/-- `NV` as a reset inside the command finds it (R109, R110): unchanged unless the command was going to reach Persist
and the reset fell inside it or after it. A command that is refused is refused there too: whether it reaches Persist
is not known (log 12). -/
def cutNv (bytes : List Byte) (point : CutPoint) (s : State) : Except Refusal Memory :=
  match point with
  | .beforePersist => .ok s.nv
  | .insidePersist draw =>
    match commandPlan bytes s.reg with
    | some (.commit _) => .ok (nvImage fun a => draw[a])
    | some (.refuse r) => .error r
    | some (.answer _) => .ok s.nv
    | none => .ok s.nv
  | .afterPersist =>
    match commandPlan bytes s.reg with
    | some (.commit m) => .ok (nvImage (regRead m))
    | some (.refuse r) => .error r
    | some (.answer _) => .ok s.nv
    | none => .ok s.nv

/-- A reset while the block is idle: the backend's indication comes in and is sampled (R19, R104, R105). -/
def runReset (cold : Bool) (lfsr : Lfsr) (s : State) : State := resetBlock lfsr (s.setCold cold)

/-- A command cut short by a reset (R109): no response, the working image and `LFSR` lost and rebuilt. -/
def runCut (bytes : List Byte) (point : CutPoint) (cold : Bool) (lfsr : Lfsr) (s : State) :
    Host.Outcome State Fault Refusal :=
  match cutNv bytes point s with
  | .error r => .refused r
  | .ok m => .next (runReset cold lfsr (s.setNv m))

/-- One event. -/
def runEvent (e : Event) (s : State) : Host.Outcome State Fault Refusal :=
  match e with
  | .command bytes => runCommand bytes s
  | .reset cold lfsr => .next (runReset cold lfsr s)
  | .cut bytes point cold lfsr => runCut bytes point cold lfsr s

end Sys2Proof.Machine
end

