-- ==== Sys2Proof/Machine/Step.lean ====
section
/-! DEFINITION. One step: the next event reaches the block and has its whole effect (20_memory.md R33, R35). -/

namespace Sys2Proof.Machine

/-- Take the next event. With none left the block stays idle and nothing changes (10_state.md R24; log 8). -/
def step (s : State) : Host.Outcome State Fault Refusal :=
  match s.events with
  | [] => .next s
  | e :: rest => runEvent e (s.setEvents rest)

/-- `s` with the command of a word of the opcode table as the next event. The block fetches nothing (R11): the host
hands a command over, and this stands for it (log 7). -/
def State.withFetchWord (s : State) (nbits w : Nat) : State :=
  s.setEvents (.command (tableBytes nbits w) :: s.events)

end Sys2Proof.Machine
end

