-- ==== Sys2Proof/Safety.lean ====
section
/-! DEFINITION. The terms in which claims about the block are made: the predicates of the spec on images, which
commands have a meaning where, the premise ASSUME_NV_FLAG, and the numbering of the bits of a message. -/

namespace Sys2Proof.Machine

/-! ### Images -/

/-- `WF(M)` of 10_state.md R17 for a given `c`: `c` occupied slots first, then every byte is the terminator. -/
def WFAt (M : Addr → Byte) (c : Count) : Prop :=
  (∀ k : SlotIdx, k.val < c.val → M (slotAddr k 0) ≠ Config.terminator) ∧
    ∀ a : Addr, 5 * c.val ≤ a.val → M a = Config.terminator

/-- `WF(M)` (R17). -/
def WF (M : Addr → Byte) : Prop := ∃ c, WFAt M c

/-- `NoDup(M)` (41_registry.md R84). -/
def NoDup (m : Memory) : Prop :=
  ∀ j k : SlotIdx, j.val < k.val → k.val < (countOf m).val → entryId (readSlot m j) ≠ entryId (readSlot m k)

/-- `NV = REG`, byte for byte (R83). -/
def Durable (s : State) : Prop := ∀ a, nvRead s.nv a = regRead s.reg a

/-- The valid prefix, slots `0 .. count-1` (R73), in order. -/
def validEntries (m : Memory) : List Entry := ((List.finRange 20).take (countOf m).val).map (readSlot m)

/-- Both memories are in canonical form (log 13). -/
def Canonical (s : State) : Prop := Memory.wf regBlank s.reg = true ∧ Memory.wf nvBlank s.nv = true

/-! ### Where a command has a meaning (R72, R77) -/

/-- RWR, RER, RPO and RCT assume `WF(REG)` (R72, U3). -/
def needsWF : Instr → Bool
  | .scr _ _ _ _ => false
  | .dsc _ _ _ _ => false
  | .rwr _ => true
  | .rer _ => true
  | .rpo _ => true
  | .rct => true
  | .rrd _ => false

/-- RWR of a four-byte identifier whose first byte is the terminator (R77, U2). -/
def writesTerminator : Instr → Bool
  | .scr _ _ _ _ => false
  | .dsc _ _ _ _ => false
  | .rwr id => decide (id.length = 4) && decide (id.head? = some Config.terminator)
  | .rer _ => false
  | .rpo _ => false
  | .rct => false
  | .rrd _ => false

/-- The two commands that mutate. -/
def mutates : Instr → Bool
  | .scr _ _ _ _ => false
  | .dsc _ _ _ _ => false
  | .rwr _ => true
  | .rer _ => true
  | .rpo _ => false
  | .rct => false
  | .rrd _ => false

/-- The two commands that load `LFSR` (R12). -/
def loadsLfsr : Instr → Bool
  | .scr _ _ _ _ => true
  | .dsc _ _ _ _ => true
  | .rwr _ => false
  | .rer _ => false
  | .rpo _ => false
  | .rct => false
  | .rrd _ => false

/-- A run is safe when each command of it has a meaning where it is issued: this is that condition for one command. -/
def HasMeaning (i : Instr) (m : Memory) : Prop :=
  (needsWF i = true → WF (regRead m)) ∧ (writesTerminator i = true → (countOf m).val = 20)

/-- An event after which the registry does not come from `NV`: a command, or a cold reset (R82). -/
def Event.keepsOrClears : Event → Bool
  | .command _ => true
  | .reset cold _ => cold
  | .cut _ _ cold _ => cold

/-! ### The premise ASSUME_NV_FLAG (70_reset_and_hazards.md R108) -/

/-- The command is going to reach Persist. -/
def commits (bytes : List Byte) (m : Memory) : Bool :=
  match commandPlan bytes m with
  | some (.commit _) => true
  | some (.answer _) => false
  | some (.refuse _) => false
  | none => false

/-- "At least one Persist has completed since the first boot and no Persist was cut short by a reset since the last
completed one", after event `e` in state `s`, when `flag` says it before. -/
def nvFlagAfter (s : State) (flag : Bool) : Event → Bool
  | .command bytes => commits bytes s.reg || flag
  | .reset _ _ => flag
  | .cut _ .beforePersist _ _ => flag
  | .cut bytes (.insidePersist _) _ _ => !commits bytes s.reg && flag
  | .cut bytes .afterPersist _ _ => commits bytes s.reg || flag

/-- The premise at one event: a reset is warm if and only if the flag then holds. It is not in the source, and no part
of the machine. -/
def assumeNvFlag (s : State) (flag : Bool) (e : Event) : Prop :=
  match e with
  | .command _ => True
  | .reset cold _ => cold = !nvFlagAfter s flag e
  | .cut _ _ cold _ => cold = !nvFlagAfter s flag e

/-! ### Bits of a message (20_memory.md R30, 40_scrambler.md R67) -/

/-- Bit number `t = 8*i + (7 - j)` of a message: bit `j` of byte `i` (R30). -/
def bitAt (l : List Byte) (t : Nat) : Bool := (l.getD (t / 8) 0).getLsbD (7 - t % 8)

/-- `c_(t-d)` of R67: a bit of the scrambled message, or, at a negative index `-1-k`, bit `k` of the seed. -/
def pastBit (seed : Lfsr) (c : List Byte) (t d : Nat) : Bool :=
  if d ≤ t then bitAt c (t - d) else seed.getLsbD (d - t - 1)

end Sys2Proof.Machine
end

