-- ==== Sys2Proof/Certificates/Slice0/Obligations.lean ====
section
/-! DEFINITION. The statements for the provers. Each docstring names the rule of the spec it formalises, or the log
entry it rests on. -/

open Sys2Proof Sys2Proof.Machine

/-! ### Encoding (30_encoding.md) -/

/-- R41 to R45: decoding the encoding of a well-formed command gives the command back, with every operand. -/
def Obligations.DecodeOfEncode : Prop :=
  ∀ i : Instr, i.wellFormed = true → decode (encode i) = .ok i

/-- R41 to R46: a byte list that decodes is the encoding of the command it decodes to, and that command is well-formed:
each command has one byte list. -/
def Obligations.EncodeOfDecode : Prop :=
  ∀ (C : List Byte) (i : Instr), decode C = .ok i → encode i = C ∧ i.wellFormed = true

/-- R45: what every byte list decodes to or is rejected with, check by check, in the order of the checks. -/
def Obligations.DecodeFollowsItsChecks : Prop :=
  decode [] = .error .malformed ∧
  (∀ (op : Byte) (rest : List Byte),
    op ∉ ([0x01, 0x02, 0x10, 0x11, 0x12, 0x13, 0x14] : List Byte) → decode (op :: rest) = .error .illegalOpcode) ∧
  (∀ (op : Byte) (rest : List Byte), op ∈ ([0x01, 0x02] : List Byte) → rest.length < 4 →
    decode (op :: rest) = .error .malformed) ∧
  (∀ (op a b c n : Byte) (data : List Byte), op ∈ ([0x01, 0x02] : List Byte) → data.length ≠ n.toNat →
    decode (op :: a :: b :: c :: n :: data) = .error .malformed) ∧
  (∀ (op a b c n : Byte) (data : List Byte), op ∈ ([0x01, 0x02] : List Byte) → data.length = n.toNat → 20 < n.toNat →
    decode (op :: a :: b :: c :: n :: data) = .error .badLength) ∧
  (∀ (a b c n : Byte) (data : List Byte), data.length = n.toNat → n.toNat ≤ 20 →
    decode (0x01 :: a :: b :: c :: n :: data) = .ok (.scr a b c data) ∧
    decode (0x02 :: a :: b :: c :: n :: data) = .ok (.dsc a b c data)) ∧
  (∀ op : Byte, op ∈ ([0x10, 0x11, 0x12] : List Byte) → decode [op] = .error .malformed) ∧
  (∀ (op idlen : Byte) (id : List Byte), op ∈ ([0x10, 0x11, 0x12] : List Byte) → id.length ≠ idlen.toNat →
    decode (op :: idlen :: id) = .error .malformed) ∧
  (∀ (idlen : Byte) (id : List Byte), id.length = idlen.toNat →
    decode (0x10 :: idlen :: id) = .ok (.rwr id) ∧ decode (0x11 :: idlen :: id) = .ok (.rer id) ∧
    decode (0x12 :: idlen :: id) = .ok (.rpo id)) ∧
  decode [0x13] = .ok .rct ∧
  (∀ (x : Byte) (rest : List Byte), decode (0x13 :: x :: rest) = .error .malformed) ∧
  (∀ index : Byte, decode [0x14, index] = .ok (.rrd index)) ∧
  (∀ rest : List Byte, rest.length ≠ 1 → decode (0x14 :: rest) = .error .malformed)

/-- R53 and 95_test_vectors.md: byte lists written out from the formats decode to the commands they stand for, one of
each command. -/
def Obligations.SpecExamplesDecode : Prop :=
  decode [0x01, 0x12, 0x34, 0x56, 0x02, 0x44, 0x49] = .ok (.scr 0x12 0x34 0x56 [0x44, 0x49]) ∧
  decode [0x02, 0x01, 0x02, 0x03, 0x00] = .ok (.dsc 0x01 0x02 0x03 []) ∧
  decode [0x10, 0x04, 0x31, 0x32, 0x33, 0x34] = .ok (.rwr [0x31, 0x32, 0x33, 0x34]) ∧
  decode [0x11, 0x03, 0x31, 0x32, 0x33] = .ok (.rer [0x31, 0x32, 0x33]) ∧
  decode [0x12, 0x04, 0xFF, 0xFF, 0xFF, 0xFF] = .ok (.rpo [0xFF, 0xFF, 0xFF, 0xFF]) ∧
  decode [0x13] = .ok .rct ∧
  decode [0x14, 0x02] = .ok (.rrd 0x02)

/-- R48: the code of each status. -/
def Obligations.StatusCodesOfTheTable : Prop :=
  statusCode .ok = 0x00 ∧ statusCode .alreadyPresent = 0x01 ∧ statusCode .notFound = 0x02 ∧
  statusCode .error = 0x03 ∧ statusCode .illegalOpcode = 0xE0 ∧ statusCode .malformed = 0xE1 ∧
  statusCode .badLength = 0xE2 ∧ statusCode .badIndex = 0xE3 ∧
  ∀ b : Byte, (∃ st, statusCode st = b) → b.toNat ≤ 0x03 ∨ (0xE0 ≤ b.toNat ∧ b.toNat ≤ 0xE3)

/-! ### The step -/

/-- A step whose next event is a command that decodes is the meaning of that command, with the event taken. That the
host's commands stand in a list of the state is the model's choice (log 7). -/
def Obligations.StepRunsTheDecodedCommand : Prop :=
  ∀ (s : State) (C : List Byte) (rest : List Event) (i : Instr),
    s.events = .command C :: rest → decode C = .ok i → step s = exec i (s.setEvents rest)

/-- R50: a byte list that is no command is answered with its status and an empty payload, and changes no state. -/
def Obligations.UndecodableCommandIsAnswered : Prop :=
  ∀ (s : State) (C : List Byte) (rest : List Event) (st : Status),
    s.events = .command C :: rest → decode C = .error st →
      step s = .next ((s.setEvents rest).addResponse [statusCode st]) ∧
      (st = .illegalOpcode ∨ st = .malformed ∨ st = .badLength)

/-- The block stays idle when nothing is asked of it. The model's choice for a step with no event left (log 8). -/
def Obligations.IdleBlockStaysAsItIs : Prop :=
  ∀ s : State, s.events = [] → step s = .next s

/-- R47: every command gets exactly one response, a status byte and a payload, and a response is never unsolicited:
neither an idle step nor a reset, in or out of a command, hands one back. -/
def Obligations.OneResponsePerCommand : Prop :=
  ∀ s t : State, step s = .next t →
    (∀ (C : List Byte) (rest : List Event), s.events = .command C :: rest →
      ∃ (st : Status) (payload : List Byte), t.responses = s.responses ++ [statusCode st :: payload]) ∧
    ((∀ (C : List Byte) (rest : List Event), s.events ≠ .command C :: rest) → t.responses = s.responses)

/-- R49: the status and the length of the payload of each command's response. -/
def Obligations.ResponsePayloads : Prop :=
  ∀ (i : Instr) (s t : State), exec i s = .next t → ∃ r, t.responses = s.responses ++ [r] ∧
    match i with
    | .scr _ _ _ data => ∃ out : List Byte, r = 0x00 :: out ∧ out.length = data.length
    | .dsc _ _ _ data => ∃ out : List Byte, r = 0x00 :: out ∧ out.length = data.length
    | .rwr _ => r = [0x00] ∨ r = [0x01] ∨ r = [0x03]
    | .rer _ => r = [0x00] ∨ r = [0x02] ∨ r = [0x03]
    | .rpo _ => r = [0x02] ∨ ∃ index : Byte, r = [0x00, index] ∧ index.toNat ≤ 19
    | .rct => ∃ count : Byte, r = [0x00, count] ∧ count.toNat ≤ 20
    | .rrd index => (r = [0xE3] ∧ 19 < index.toNat) ∨
        ∃ a b c d type : Byte, r = [0x00, a, b, c, d, type] ∧ index.toNat ≤ 19

/-- R95: a command that answers anything other than OK changes no state. -/
def Obligations.OtherThanOkChangesNothing : Prop :=
  ∀ (s t : State) (C : List Byte) (rest : List Event) (r : List Byte),
    s.events = .command C :: rest → step s = .next t → t.responses = s.responses ++ [r] → r.head? ≠ some 0x00 →
      t = (s.setEvents rest).addResponse r

/-- R12, R14, R18, R19, R21: only SCR and DSC write LFSR; only RWR and RER write REG and NV; no command writes COLD or
what the host will ask next. -/
def Obligations.EachCommandWritesOnlyItsOwnState : Prop :=
  ∀ (i : Instr) (s t : State), exec i s = .next t →
    t.cold = s.cold ∧ t.events = s.events ∧
    (loadsLfsr i = false → t.lfsr = s.lfsr) ∧
    (mutates i = false → t.reg = s.reg ∧ t.nv = s.nv)

/-- Which commands have a meaning where: `exec` answers a next state exactly when the image is well-formed, if the
command needs it (R72), and the command is not one that R77 gives no meaning. That RWR, RER and RPO of an identifier
whose length is not 4 give no next state on an ill-formed image is the model's choice (log 10, DEDUCED: R72 against
the "whatever the registry holds" of R76). -/
def Obligations.CommandsRunExactlyWhereTheyHaveAMeaning : Prop :=
  ∀ (i : Instr) (s : State), (∃ t, exec i s = .next t) ↔ HasMeaning i s.reg

/-- R20: what LFSR holds before a step has no effect on the outcome of the step, LFSR itself apart. -/
def Obligations.LfsrIsUnobservable : Prop :=
  ∀ (s : State) (v : Lfsr),
    (∀ t, step s = .next t → ∃ w, step (s.setLfsr v) = .next (t.setLfsr w)) ∧
    (∀ r, step s = .refused r → step (s.setLfsr v) = .refused r)

/-! ### Scrambler and descrambler (40_scrambler.md) -/

/-- R58, R28: the seed bytes load the register low byte first, each in its own bit order. -/
def Obligations.SeedLoadsLowByteFirst : Prop :=
  ∀ seed0 seed1 seed2 : Byte, ∀ j < 8,
    (lfsrInit seed0 seed1 seed2).getLsbD j = seed0.getLsbD j ∧
    (lfsrInit seed0 seed1 seed2).getLsbD (8 + j) = seed1.getLsbD j ∧
    (lfsrInit seed0 seed1 seed2).getLsbD (16 + j) = seed2.getLsbD j

/-- R59: one bit. The output is the input xor bits 18 and 23 of the register before the shift; the register moves left
by one; the bit shifted in is the output when scrambling, the input when descrambling. -/
def Obligations.BitStepReadsTapsThenShifts : Prop :=
  ∀ (mode : ScrMode) (s : Lfsr) (b : Bool),
    (bitStep mode s b).2 = Bool.xor b (Bool.xor (s.getLsbD 18) (s.getLsbD 23)) ∧
    (∀ k < 23, (bitStep mode s b).1.getLsbD (k + 1) = s.getLsbD k) ∧
    (mode = .scramble → (bitStep mode s b).1.getLsbD 0 = (bitStep mode s b).2) ∧
    (mode = .descramble → (bitStep mode s b).1.getLsbD 0 = b)

/-- SCR completes in every state, answers OK with as many bytes as it was given, and writes LFSR and nothing else
(R62); its output bits satisfy the recurrence `c_t = p_t xor c_(t-19) xor c_(t-24)` (R67). -/
def Obligations.ScrCompletesWithTheScramblerRecurrence : Prop :=
  ∀ (seed0 seed1 seed2 : Byte) (data : List Byte) (s : State), ∃ (out : List Byte) (v : Lfsr),
    exec (.scr seed0 seed1 seed2 data) s = .next ((s.setLfsr v).addResponse (0x00 :: out)) ∧
    out.length = data.length ∧
    ∀ t < 8 * data.length, bitAt out t =
      Bool.xor (bitAt data t)
        (Bool.xor (pastBit (lfsrInit seed0 seed1 seed2) out t 19) (pastBit (lfsrInit seed0 seed1 seed2) out t 24))

/-- DSC completes in every state, answers OK with as many bytes as it was given, and writes LFSR and nothing else
(R63); its output bits satisfy the recurrence `p_t = c_t xor c_(t-19) xor c_(t-24)` (R67). -/
def Obligations.DscCompletesWithTheDescramblerRecurrence : Prop :=
  ∀ (seed0 seed1 seed2 : Byte) (data : List Byte) (s : State), ∃ (out : List Byte) (v : Lfsr),
    exec (.dsc seed0 seed1 seed2 data) s = .next ((s.setLfsr v).addResponse (0x00 :: out)) ∧
    out.length = data.length ∧
    ∀ t < 8 * data.length, bitAt out t =
      Bool.xor (bitAt data t)
        (Bool.xor (pastBit (lfsrInit seed0 seed1 seed2) data t 19) (pastBit (lfsrInit seed0 seed1 seed2) data t 24))

/-- R64: LFSR after SCR or DSC of n bytes: the seed when n is 0; the 24 most recent scrambled-side bits; for n of 3 or
more the last three scrambled-side bytes, the output of SCR and the input of DSC. -/
def Obligations.LfsrHoldsTheLastScrambledBits : Prop :=
  ∀ (seed0 seed1 seed2 : Byte) (data : List Byte) (s t : State) (scrambled : List Byte),
    (exec (.scr seed0 seed1 seed2 data) s = .next t ∧ t.responses = s.responses ++ [0x00 :: scrambled]) ∨
    (exec (.dsc seed0 seed1 seed2 data) s = .next t ∧ scrambled = data) →
      (data = [] → t.lfsr = lfsrInit seed0 seed1 seed2) ∧
      (∀ k < 24, t.lfsr.getLsbD k = pastBit (lfsrInit seed0 seed1 seed2) scrambled (8 * data.length) (k + 1)) ∧
      (∀ (front : List Byte) (a b c : Byte), scrambled = front ++ [a, b, c] → t.lfsr = lfsrInit c b a)

/-- R65: DSC with the seed of SCR gives back what SCR was given, and the other way round; the two are not the same
function, and neither is its own inverse. -/
def Obligations.DescramblerAndScramblerInvertEachOther : Prop :=
  (∀ (seed0 seed1 seed2 : Byte) (X : List Byte) (s : State), ∃ (Y : List Byte) (t u : State),
    exec (.scr seed0 seed1 seed2 X) s = .next t ∧ t.responses = s.responses ++ [0x00 :: Y] ∧
    exec (.dsc seed0 seed1 seed2 Y) t = .next u ∧ u.responses = t.responses ++ [0x00 :: X]) ∧
  (∀ (seed0 seed1 seed2 : Byte) (Y : List Byte) (s : State), ∃ (X : List Byte) (t u : State),
    exec (.dsc seed0 seed1 seed2 Y) s = .next t ∧ t.responses = s.responses ++ [0x00 :: X] ∧
    exec (.scr seed0 seed1 seed2 X) t = .next u ∧ u.responses = t.responses ++ [0x00 :: Y]) ∧
  (∃ (a b c : Byte) (X : List Byte), xform .scramble a b c X ≠ xform .descramble a b c X) ∧
  (∃ (a b c : Byte) (X : List Byte), xform .scramble a b c (xform .scramble a b c X) ≠ X) ∧
  (∃ (a b c : Byte) (X : List Byte), xform .descramble a b c (xform .descramble a b c X) ≠ X)

/-- R66: the output is as long as the input, the transform of a prefix is the prefix of the transform, and output bit
t depends on input bits 0 to t only. -/
def Obligations.TransformIsCausal : Prop :=
  ∀ (mode : ScrMode) (a b c : Byte),
    (∀ X : List Byte, (xform mode a b c X).length = X.length) ∧
    (∀ (X : List Byte) (k : Nat), xform mode a b c (X.take k) = (xform mode a b c X).take k) ∧
    (∀ (X Y : List Byte) (t : Nat), X.length = Y.length → t < 8 * X.length →
      (∀ u ≤ t, bitAt X u = bitAt Y u) → bitAt (xform mode a b c X) t = bitAt (xform mode a b c Y) t)

/-- R68: the descrambler synchronizes itself. After three bytes its register does not depend on the seed, and its
output bytes 3 and later do not; a wrong seed S' adds `d_(t-19) xor d_(t-24)` to bit t, d being S xor S' at the
negative indices; one flipped scrambled bit t flips exactly the plain bits t, t+19 and t+24. -/
def Obligations.DescramblerSynchronizesItself : Prop :=
  (∀ (a b c a' b' c' : Byte) (Y : List Byte), 3 ≤ Y.length →
    xformLfsr .descramble a b c Y = xformLfsr .descramble a' b' c' Y) ∧
  (∀ (a b c a' b' c' : Byte) (Y : List Byte) (i : Nat), 3 ≤ i →
    (xform .descramble a b c Y)[i]? = (xform .descramble a' b' c' Y)[i]?) ∧
  (∀ (a b c a' b' c' : Byte) (Y : List Byte) (t : Nat), t < 8 * Y.length →
    bitAt (xform .descramble a' b' c' Y) t = Bool.xor (bitAt (xform .descramble a b c Y) t)
      (Bool.xor (pastBit (lfsrInit a b c ^^^ lfsrInit a' b' c') [] t 19)
        (pastBit (lfsrInit a b c ^^^ lfsrInit a' b' c') [] t 24))) ∧
  (∀ (a b c : Byte) (Y Y' : List Byte) (t : Nat), Y'.length = Y.length → t < 8 * Y.length →
    (∀ u < 8 * Y.length, bitAt Y' u = Bool.xor (bitAt Y u) (decide (u = t))) →
    ∀ u < 8 * Y.length, bitAt (xform .descramble a b c Y') u =
      Bool.xor (bitAt (xform .descramble a b c Y) u) (decide (u = t ∨ u = t + 19 ∨ u = t + 24)))

/-- R69 a, b, c: no data; zeros under the zero seed; ones under the seed of ones. The scrambler has no lock-up
protection. -/
def Obligations.ConstantMessagesUnderConstantSeeds : Prop :=
  ∀ (mode : ScrMode) (n : Nat),
    (∀ a b c : Byte, xform mode a b c [] = [] ∧ xformLfsr mode a b c [] = lfsrInit a b c) ∧
    xform mode 0x00 0x00 0x00 (List.replicate n 0x00) = List.replicate n 0x00 ∧
    xformLfsr mode 0x00 0x00 0x00 (List.replicate n 0x00) = 0 ∧
    xform mode 0xFF 0xFF 0xFF (List.replicate n 0xFF) = List.replicate n 0xFF ∧
    xformLfsr mode 0xFF 0xFF 0xFF (List.replicate n 0xFF) = 0xFFFFFF

/-! ### Registry (41_registry.md) -/

/-- R17: the model's test of an image is the spec's WF, and the `c` of a well-formed image is unique and is the
count. -/
def Obligations.WellFormednessIsTested : Prop :=
  ∀ m : Memory, (imageWF m = true ↔ WF (regRead m)) ∧ ∀ c, WFAt (regRead m) c → c = countOf m

/-- R73, R16: the count is the least slot whose first byte is the terminator, or 20 when there is none. All slots of the
valid prefix are occupied and, in a well-formed image, no other slot is. -/
def Obligations.CountIsTheLeastEmptySlot : Prop :=
  ∀ m : Memory,
    (countOf m).val ≤ 20 ∧
    (∀ k : SlotIdx, k.val < (countOf m).val → regRead m (slotAddr k 0) ≠ 0xFF) ∧
    (∀ k : SlotIdx, k.val = (countOf m).val → regRead m (slotAddr k 0) = 0xFF) ∧
    (WF (regRead m) → ∀ k : SlotIdx, (countOf m).val ≤ k.val → regRead m (slotAddr k 0) = 0xFF)

/-- R74, R75: find answers the least slot of the valid prefix whose four identifier bytes are those of the identifier,
or none when there is no such slot. -/
def Obligations.FindIsTheLeastMatch : Prop :=
  ∀ (m : Memory) (a b c d : Byte),
    let hit : SlotIdx → Prop := fun k =>
      k.val < (countOf m).val ∧ regRead m (slotAddr k 0) = a ∧ regRead m (slotAddr k 1) = b ∧
        regRead m (slotAddr k 2) = c ∧ regRead m (slotAddr k 3) = d
    (∀ k, findId m [a, b, c, d] = some k ↔ hit k ∧ ∀ j : SlotIdx, j.val < k.val → ¬hit j) ∧
    (findId m [a, b, c, d] = none ↔ ∀ k, ¬hit k)

/-- R76: RWR on a well-formed registry. A wrong length, a present identifier and a full registry are answered in that
order, with no state changed. Otherwise the identifier and TYPE_DEFAULT (any byte: log 1) are written in slot c, c
being the count, all of NV is written, and nothing else changes. -/
def Obligations.RwrFollowsItsRule : Prop :=
  ∀ (s : State) (id : List Byte), WF (regRead s.reg) →
    (id.length ≠ 4 → exec (.rwr id) s = .next (s.addResponse [0x03])) ∧
    (id.length = 4 → findId s.reg id ≠ none → exec (.rwr id) s = .next (s.addResponse [0x01])) ∧
    (id.length = 4 → findId s.reg id = none → (countOf s.reg).val = 20 →
      exec (.rwr id) s = .next (s.addResponse [0x03])) ∧
    (id.length = 4 → findId s.reg id = none → (countOf s.reg).val < 20 → id.head? ≠ some 0xFF →
      ∃ t, exec (.rwr id) s = .next t ∧ t.responses = s.responses ++ [[0x00]] ∧
        (countOf t.reg).val = (countOf s.reg).val + 1 ∧
        (findId t.reg id).map Fin.val = some (countOf s.reg).val ∧
        (∀ k : SlotIdx, k.val = (countOf s.reg).val → entryBytes (readSlot t.reg k) = id ++ [Config.typeDefault]) ∧
        (∀ a : Addr, a.val < 5 * (countOf s.reg).val ∨ 5 * (countOf s.reg).val + 5 ≤ a.val →
          regRead t.reg a = regRead s.reg a) ∧
        (∀ a, nvRead t.nv a = regRead t.reg a) ∧
        t.lfsr = s.lfsr ∧ t.cold = s.cold ∧ t.events = s.events)

/-- R77: an identifier that begins with the terminator, on a well-formed registry. It is never found; RWR of it is
refused where the registry is not full and answers ERROR where it is; RER and RPO answer NOT_FOUND. -/
def Obligations.TerminatorIdentifiers : Prop :=
  ∀ (s : State) (b c d : Byte), WF (regRead s.reg) →
    findId s.reg [0xFF, b, c, d] = none ∧
    ((countOf s.reg).val < 20 → exec (.rwr [0xFF, b, c, d]) s = .refused .terminatorIdentifier) ∧
    ((countOf s.reg).val = 20 → exec (.rwr [0xFF, b, c, d]) s = .next (s.addResponse [0x03])) ∧
    exec (.rer [0xFF, b, c, d]) s = .next (s.addResponse [0x02]) ∧
    exec (.rpo [0xFF, b, c, d]) s = .next (s.addResponse [0x02])

/-- R78, R79: RER on a well-formed registry. A wrong length and an absent identifier are answered in that order, with
no state changed. Otherwise the entry found at p is removed: the slots before p stay, each later entry moves one slot
down with its type byte, slot c-1 and all after it are blank, all of NV is written, and nothing else changes. -/
def Obligations.RerFollowsItsRule : Prop :=
  ∀ (s : State) (id : List Byte), WF (regRead s.reg) →
    (id.length ≠ 4 → exec (.rer id) s = .next (s.addResponse [0x03])) ∧
    (id.length = 4 → findId s.reg id = none → exec (.rer id) s = .next (s.addResponse [0x02])) ∧
    (∀ p : SlotIdx, id.length = 4 → findId s.reg id = some p →
      ∃ t, exec (.rer id) s = .next t ∧ t.responses = s.responses ++ [[0x00]] ∧
        (countOf t.reg).val + 1 = (countOf s.reg).val ∧
        (∀ a : Addr, a.val < 5 * p.val → regRead t.reg a = regRead s.reg a) ∧
        (∀ a b : Addr, 5 * p.val ≤ a.val → b.val = a.val + 5 → b.val < 5 * (countOf s.reg).val →
          regRead t.reg a = regRead s.reg b) ∧
        (∀ a : Addr, 5 * (countOf s.reg).val ≤ a.val + 5 → regRead t.reg a = 0xFF) ∧
        (∀ a, nvRead t.nv a = regRead t.reg a) ∧
        t.lfsr = s.lfsr ∧ t.cold = s.cold ∧ t.events = s.events)

/-- R80: RPO on a well-formed registry answers the index, or NOT_FOUND when there is none or the length is not 4, and
changes no state. -/
def Obligations.RpoFollowsItsRule : Prop :=
  ∀ (s : State) (id : List Byte), WF (regRead s.reg) →
    (id.length ≠ 4 → exec (.rpo id) s = .next (s.addResponse [0x02])) ∧
    (id.length = 4 → findId s.reg id = none → exec (.rpo id) s = .next (s.addResponse [0x02])) ∧
    (∀ p : SlotIdx, id.length = 4 → findId s.reg id = some p →
      ∃ index : Byte, index.toNat = p.val ∧ exec (.rpo id) s = .next (s.addResponse [0x00, index]))

/-- R81: RCT on a well-formed registry answers the count and changes no state. -/
def Obligations.RctFollowsItsRule : Prop :=
  ∀ s : State, WF (regRead s.reg) →
    ∃ count : Byte, count.toNat = (countOf s.reg).val ∧ exec .rct s = .next (s.addResponse [0x00, count])

/-- R87: RRD, on every image, answers the five raw bytes of the slot, or BAD_INDEX above 19, and changes no state. -/
def Obligations.RrdFollowsItsRule : Prop :=
  ∀ (s : State) (index : Byte),
    (19 < index.toNat → exec (.rrd index) s = .next (s.addResponse [0xE3])) ∧
    (∀ k : SlotIdx, k.val = index.toNat → exec (.rrd index) s = .next (s.addResponse
      [0x00, regRead s.reg (slotAddr k 0), regRead s.reg (slotAddr k 1), regRead s.reg (slotAddr k 2),
        regRead s.reg (slotAddr k 3), regRead s.reg (slotAddr k 4)]))

/-- R72, U3: on an image that is not well-formed RWR, RER, RPO and RCT are refused, and SCR, DSC and RRD answer. That an
identifier whose length is not 4 is refused there too is the model's choice (log 10, DEDUCED). -/
def Obligations.IllFormedImageIsRefused : Prop :=
  ∀ s : State, ¬WF (regRead s.reg) →
    (∀ id, exec (.rwr id) s = .refused .illFormedRegistry ∧ exec (.rer id) s = .refused .illFormedRegistry ∧
      exec (.rpo id) s = .refused .illFormedRegistry) ∧
    exec .rct s = .refused .illFormedRegistry ∧
    (∀ a b c data, (∃ t, exec (.scr a b c data) s = .next t) ∧ ∃ t, exec (.dsc a b c data) s = .next t) ∧
    ∀ index, ∃ t, exec (.rrd index) s = .next t

/-- R83: after RWR or RER has answered OK, NV = REG; any other response, of any command, leaves both as they were; so
what held of NV = REG goes on holding; and a cold reset may end it. -/
def Obligations.DurableCopyFollowsEveryMutation : Prop :=
  (∀ (C : List Byte) (s t : State), runCommand C s = .next t →
    ((∃ i, decode C = .ok i ∧ mutates i = true) ∧ t.responses = s.responses ++ [[0x00]] → Durable t) ∧
    (¬((∃ i, decode C = .ok i ∧ mutates i = true) ∧ t.responses = s.responses ++ [[0x00]]) →
      t.reg = s.reg ∧ t.nv = s.nv) ∧
    (Durable s → Durable t)) ∧
  ∃ (s t : State) (v : Lfsr), Durable s ∧ s.events = [.reset true v] ∧ step s = .next t ∧ ¬Durable t

/-- R82: a well-formed image stays well-formed under every command and a cold reset gives one, so an image stays
well-formed as long as the events are commands and cold resets; and only a reset that loads an ill-formed NV can bring
an ill-formed image in. -/
def Obligations.WellFormednessIsPreserved : Prop :=
  (∀ s t : State, WF (regRead s.reg) ∧ (∀ e ∈ s.events, e.keepsOrClears = true) → step s = .next t →
    WF (regRead t.reg) ∧ ∀ e ∈ t.events, e.keepsOrClears = true) ∧
  (∀ (s t : State) (v : Lfsr) (rest : List Event), s.events = .reset true v :: rest → step s = .next t →
    WF (regRead t.reg)) ∧
  (∀ s t : State, WF (regRead s.reg) → step s = .next t → ¬WF (regRead t.reg) →
    (∃ e rest, s.events = e :: rest ∧ e.keepsOrClears = false) ∧ ¬WF (nvRead t.nv))

/-- R84: every command that answers keeps the registry free of duplicates, and a cold reset gives such a registry. -/
def Obligations.NoDuplicatesArePreserved : Prop :=
  ∀ s t : State, step s = .next t →
    (NoDup s.reg → (∀ e rest, s.events = e :: rest → e.keepsOrClears = true) → NoDup t.reg) ∧
    (∀ (v : Lfsr) (rest : List Event), s.events = .reset true v :: rest → NoDup t.reg)

/-- R85: the valid prefix is the list of the entries written and not yet erased, in the order written. RWR that answers
OK puts one entry at the end, RER that answers OK takes out the one found, and every other response leaves the list as
it was. -/
def Obligations.RegistryRefinesAList : Prop :=
  ∀ (i : Instr) (s t : State), exec i s = .next t →
    (∀ id, i = .rwr id → t.responses = s.responses ++ [[0x00]] →
      ∃ e, entryBytes e = id ++ [Config.typeDefault] ∧ validEntries t.reg = validEntries s.reg ++ [e]) ∧
    (∀ id, i = .rer id → t.responses = s.responses ++ [[0x00]] →
      ∃ p, findId s.reg id = some p ∧ validEntries t.reg = (validEntries s.reg).eraseIdx p.val) ∧
    (mutates i = false ∨ t.responses ≠ s.responses ++ [[0x00]] → validEntries t.reg = validEntries s.reg)

/-- R86 a: 20 writes of distinct identifiers into an empty registry all answer OK, a write of one more answers ERROR,
and the count is 20. The first byte of the 20 is not 0xFF (R77). -/
def Obligations.TwentyWritesFillTheRegistry : Prop :=
  ∀ (s : State) (ids : List (List Byte)) (extra : List Byte) (rest : List Event),
    (∀ a, regRead s.reg a = 0xFF) → ids.length = 20 → ids.Nodup →
    (∀ id ∈ ids, id.length = 4 ∧ id.head? ≠ some 0xFF) → extra.length = 4 → extra ∉ ids →
    s.events = ids.map (fun id => .command (encode (.rwr id))) ++
      .command (encode (.rwr extra)) :: .command (encode .rct) :: rest →
    ∃ t : State, Host.Core.run Sys2Proof.core 22 s = .next t ∧ t.events = rest ∧
      t.responses = s.responses ++ List.replicate 20 [0x00] ++ [[0x03], [0x00, 20]]

/-- R86 b, R112: issuing a command again is safe. RWR of an identifier that RWR has just written answers
ALREADY_PRESENT, and RER of one that RER has just removed from a registry without duplicates answers NOT_FOUND, each
without change. -/
def Obligations.ReissuedMutationsChangeNothing : Prop :=
  ∀ (s t : State) (id : List Byte), t.responses = s.responses ++ [[0x00]] →
    (exec (.rwr id) s = .next t → exec (.rwr id) t = .next (t.addResponse [0x01])) ∧
    (NoDup s.reg → exec (.rer id) s = .next t → exec (.rer id) t = .next (t.addResponse [0x02]))

/-- R118, R86 c: after an RER that answers OK, the index of every later entry is one less and that of every earlier
entry is what it was. -/
def Obligations.IndicesMoveOnErase : Prop :=
  ∀ (s t : State) (id other : List Byte) (p j : SlotIdx),
    exec (.rer id) s = .next t → t.responses = s.responses ++ [[0x00]] → findId s.reg id = some p →
    other.length = 4 → findId s.reg other = some j →
      (p.val < j.val → (findId t.reg other).map Fin.val = some (j.val - 1)) ∧
      (j.val < p.val → (findId t.reg other).map Fin.val = some j.val)

/-- R89: an entry's type byte is written once, by the RWR that appends it, with TYPE_DEFAULT. An entry that is there
after a command was there before it, type byte and all, or it is the one in slot c, c being the old count, that RWR of
an identifier that was absent has just put there and answered OK. -/
def Obligations.TypeByteIsWrittenOnce : Prop :=
  ∀ (i : Instr) (s t : State), exec i s = .next t → ∀ e ∈ validEntries t.reg,
    e ∈ validEntries s.reg ∨
      ∃ (id : List Byte) (k : SlotIdx), i = .rwr id ∧ findId s.reg id = none ∧
        t.responses = s.responses ++ [[0x00]] ∧ k.val = (countOf s.reg).val ∧ readSlot t.reg k = e ∧
        entryBytes e = id ++ [Config.typeDefault]

/-! ### The representation of the memories (log 13) -/

/-- The model's canonical form of REG and NV is kept by every step. -/
def Obligations.CanonicalFormIsPreserved : Prop :=
  ∀ s t : State, Canonical s → step s = .next t → Canonical t

/-! ### Reset (70_reset_and_hazards.md) -/

/-- The state after the first boot (R22, R107): the registry is empty and well-formed, free of duplicates and in the
model's canonical form, COLD is 1, and every byte of NV is the free value of log 2. -/
def Obligations.StateAfterFirstBoot : Prop :=
  (∀ a, regRead State.reset.reg a = 0xFF) ∧ State.reset.cold = true ∧
  (∀ a, nvRead State.reset.nv a = Config.nvUnwritten a) ∧
  Canonical State.reset ∧ WF (regRead State.reset.reg) ∧ (countOf State.reset.reg).val = 0 ∧ NoDup State.reset.reg

/-- R105, R106: a reset answers nothing, samples COLD, creates REG empty when it is 1 and loads it from NV when it is 0,
well-formed or not, and does not write NV. LFSR takes whatever value is drawn. -/
def Obligations.ResetRebuildsTheWorkingImage : Prop :=
  ∀ (s : State) (cold : Bool) (v : Lfsr) (rest : List Event), s.events = .reset cold v :: rest →
    ∃ t, step s = .next t ∧
      (cold = true → ∀ a, regRead t.reg a = 0xFF) ∧
      (cold = false → (∀ a, regRead t.reg a = nvRead s.nv a) ∧ (WF (regRead t.reg) ↔ WF (nvRead s.nv))) ∧
      t.nv = s.nv ∧ t.lfsr = v ∧ t.cold = cold ∧ t.events = rest ∧ t.responses = s.responses

/-- R109: a reset inside a command. No response is delivered; REG is rebuilt by R105 from NV as it then stands; NV is
unchanged if the reset fell before Persist began, or if the command was not going to reach Persist: a byte list that
does not decode, SCR, DSC, RPO, RCT, RRD, and an RWR or RER that would have answered another status than OK. -/
def Obligations.ResetInsideACommand : Prop :=
  ∀ (s : State) (C : List Byte) (point : CutPoint) (cold : Bool) (v : Lfsr) (rest : List Event),
    s.events = .cut C point cold v :: rest →
      (∀ t, step s = .next t →
        t.responses = s.responses ∧ t.events = rest ∧ t.cold = cold ∧ t.lfsr = v ∧
        (cold = true → ∀ a, regRead t.reg a = 0xFF) ∧ (cold = false → ∀ a, regRead t.reg a = nvRead t.nv a)) ∧
      (point = .beforePersist ∨ (∃ st, decode C = .error st) ∨ (∃ i, decode C = .ok i ∧ mutates i = false) ∨
        (∃ i t r, decode C = .ok i ∧ exec i (s.setEvents rest) = .next t ∧ t.responses = s.responses ++ [r] ∧
          r ≠ [0x00]) →
        ∃ t, step s = .next t ∧ t.nv = s.nv)

/-- R110: a reset inside the Persist of an RWR or RER that would have answered OK leaves NV with any 100 bytes, whichever
are drawn, and COLD is free as always. -/
def Obligations.InterruptedPersistLeavesAnyImage : Prop :=
  ∀ (s u : State) (C : List Byte) (i : Instr) (draw : Vector Byte 100) (cold : Bool) (v : Lfsr) (rest : List Event),
    s.events = .cut C (.insidePersist draw) cold v :: rest → decode C = .ok i → mutates i = true →
    exec i (s.setEvents rest) = .next u → u.responses = s.responses ++ [[0x00]] →
      ∃ t, step s = .next t ∧ (∀ a : Addr, nvRead t.nv a = draw[a]) ∧ t.responses = s.responses ∧
        ∀ a, regRead t.reg a = if cold then 0xFF else draw[a]

/-- A reset after the Persist of an RWR or RER that would have answered OK, and before the response: NV is what the
command made it. DEDUCED from R36, since R109 names no case for it (log 9). -/
def Obligations.ResetAfterPersistKeepsTheNewImage : Prop :=
  ∀ (s u : State) (C : List Byte) (i : Instr) (cold : Bool) (v : Lfsr) (rest : List Event),
    s.events = .cut C .afterPersist cold v :: rest → decode C = .ok i → mutates i = true →
    exec i (s.setEvents rest) = .next u → u.responses = s.responses ++ [[0x00]] →
      ∃ t, step s = .next t ∧ (∀ a, nvRead t.nv a = nvRead u.nv a) ∧ t.responses = s.responses

/-- R108: what the premise ASSUME_NV_FLAG buys. As long as each event meets it, NV = REG whenever the flag holds, and a
reset of an idle block then leaves every byte of the registry as it was. -/
def Obligations.RegistrySurvivesResetUnderThePremise : Prop :=
  (∀ (s t : State) (flag : Bool) (e : Event) (rest : List Event), s.events = e :: rest →
    (flag = true → Durable s) → assumeNvFlag s flag e → step s = .next t → nvFlagAfter s flag e = true → Durable t) ∧
  (∀ (s : State) (cold : Bool) (v : Lfsr) (rest : List Event), s.events = .reset cold v :: rest →
    Durable s → assumeNvFlag s true (.reset cold v) →
    ∃ t, step s = .next t ∧ Durable t ∧ ∀ a, regRead t.reg a = regRead s.reg a)
end

