-- ==== Sys2Proof/Laws/Decode.lean ====
section
/-! SUPPORT. What each format's decoder can answer (30_encoding.md R45). -/

namespace Sys2Proof

/-- The opcode map, one test after the other. -/
theorem decode_cons (op : Byte) (rest : List Byte) :
    decode (op :: rest) =
      if op = opScr then decodeS .scr rest
      else if op = opDsc then decodeS .dsc rest
      else if op = opRwr then decodeI .rwr rest
      else if op = opRer then decodeI .rer rest
      else if op = opRpo then decodeI .rpo rest
      else if op = opRct then decodeN .rct rest
      else if op = opRrd then decodeX .rrd rest
      else .error .illegalOpcode := rfl

theorem decodeS_ok {mk : Byte → Byte → Byte → List Byte → Instr} {rest : List Byte} {i : Instr}
    (h : decodeS mk rest = .ok i) :
    ∃ a b c n data, rest = a :: b :: c :: n :: data ∧ data.length = n.toNat ∧ n.toNat ≤ 20 ∧ i = mk a b c data := by
  unfold decodeS at h
  split at h
  · split at h
    · simp at h
    · split at h
      · simp at h
      · rename_i h₁ h₂
        simp only [Config.scrMaxLen] at h₂
        exact ⟨_, _, _, _, _, rfl, by omega, by omega, by simpa using h.symm⟩
  · simp at h

theorem decodeS_error {mk : Byte → Byte → Byte → List Byte → Instr} {rest : List Byte} {st : Status}
    (h : decodeS mk rest = .error st) : st = .malformed ∨ st = .badLength := by
  unfold decodeS at h
  (repeat' split at h) <;> simp_all

theorem decodeI_ok {mk : List Byte → Instr} {rest : List Byte} {i : Instr} (h : decodeI mk rest = .ok i) :
    ∃ idlen id, rest = idlen :: id ∧ id.length = idlen.toNat ∧ i = mk id := by
  unfold decodeI at h
  split at h
  · split at h
    · simp at h
    · exact ⟨_, _, rfl, by omega, by simpa using h.symm⟩
  · simp at h

theorem decodeI_error {mk : List Byte → Instr} {rest : List Byte} {st : Status} (h : decodeI mk rest = .error st) :
    st = .malformed := by
  unfold decodeI at h
  (repeat' split at h) <;> simp_all

theorem decodeN_ok {j i : Instr} {rest : List Byte} (h : decodeN j rest = .ok i) : rest = [] ∧ i = j := by
  unfold decodeN at h
  split at h <;> simp_all

theorem decodeN_error {j : Instr} {rest : List Byte} {st : Status} (h : decodeN j rest = .error st) :
    st = .malformed := by
  unfold decodeN at h
  split at h <;> simp_all

theorem decodeX_ok {mk : Byte → Instr} {rest : List Byte} {i : Instr} (h : decodeX mk rest = .ok i) :
    ∃ index, rest = [index] ∧ i = mk index := by
  unfold decodeX at h
  split at h <;> simp_all

theorem decodeX_error {mk : Byte → Instr} {rest : List Byte} {st : Status} (h : decodeX mk rest = .error st) :
    st = .malformed := by
  unfold decodeX at h
  split at h <;> simp_all

/-- A length byte says the length of a list of at most 255 bytes. -/
theorem lengthByte_toNat {l : List Byte} (h : l.length ≤ 255) : (lengthByte l).toNat = l.length := by
  simp only [lengthByte, BitVec.toNat_ofNat]
  omega

theorem lengthByte_eq {l : List Byte} {n : Byte} (h : l.length = n.toNat) : lengthByte l = n :=
  BitVec.eq_of_toNat_eq (by simp [lengthByte, h])

end Sys2Proof
end

