-- ==== Sys2Proof/Laws/State.lean ====
section
/-! SUPPORT. One lemma per field per update of the state, and what the shared operations over the whole state leave in
each field. -/

namespace Sys2Proof.Machine

namespace State

variable (s : State)

@[simp] theorem setLfsr_lfsr (v : Lfsr) : (s.setLfsr v).lfsr = v := rfl
@[simp] theorem setLfsr_reg (v : Lfsr) : (s.setLfsr v).reg = s.reg := rfl
@[simp] theorem setLfsr_nv (v : Lfsr) : (s.setLfsr v).nv = s.nv := rfl
@[simp] theorem setLfsr_cold (v : Lfsr) : (s.setLfsr v).cold = s.cold := rfl
@[simp] theorem setLfsr_events (v : Lfsr) : (s.setLfsr v).events = s.events := rfl
@[simp] theorem setLfsr_responses (v : Lfsr) : (s.setLfsr v).responses = s.responses := rfl

@[simp] theorem setReg_lfsr (m : Memory) : (s.setReg m).lfsr = s.lfsr := rfl
@[simp] theorem setReg_reg (m : Memory) : (s.setReg m).reg = m := rfl
@[simp] theorem setReg_nv (m : Memory) : (s.setReg m).nv = s.nv := rfl
@[simp] theorem setReg_cold (m : Memory) : (s.setReg m).cold = s.cold := rfl
@[simp] theorem setReg_events (m : Memory) : (s.setReg m).events = s.events := rfl
@[simp] theorem setReg_responses (m : Memory) : (s.setReg m).responses = s.responses := rfl

@[simp] theorem setNv_lfsr (m : Memory) : (s.setNv m).lfsr = s.lfsr := rfl
@[simp] theorem setNv_reg (m : Memory) : (s.setNv m).reg = s.reg := rfl
@[simp] theorem setNv_nv (m : Memory) : (s.setNv m).nv = m := rfl
@[simp] theorem setNv_cold (m : Memory) : (s.setNv m).cold = s.cold := rfl
@[simp] theorem setNv_events (m : Memory) : (s.setNv m).events = s.events := rfl
@[simp] theorem setNv_responses (m : Memory) : (s.setNv m).responses = s.responses := rfl

@[simp] theorem setCold_lfsr (b : Bool) : (s.setCold b).lfsr = s.lfsr := rfl
@[simp] theorem setCold_reg (b : Bool) : (s.setCold b).reg = s.reg := rfl
@[simp] theorem setCold_nv (b : Bool) : (s.setCold b).nv = s.nv := rfl
@[simp] theorem setCold_cold (b : Bool) : (s.setCold b).cold = b := rfl
@[simp] theorem setCold_events (b : Bool) : (s.setCold b).events = s.events := rfl
@[simp] theorem setCold_responses (b : Bool) : (s.setCold b).responses = s.responses := rfl

@[simp] theorem setEvents_lfsr (es : List Event) : (s.setEvents es).lfsr = s.lfsr := rfl
@[simp] theorem setEvents_reg (es : List Event) : (s.setEvents es).reg = s.reg := rfl
@[simp] theorem setEvents_nv (es : List Event) : (s.setEvents es).nv = s.nv := rfl
@[simp] theorem setEvents_cold (es : List Event) : (s.setEvents es).cold = s.cold := rfl
@[simp] theorem setEvents_events (es : List Event) : (s.setEvents es).events = es := rfl
@[simp] theorem setEvents_responses (es : List Event) : (s.setEvents es).responses = s.responses := rfl

@[simp] theorem addResponse_lfsr (r : List Byte) : (s.addResponse r).lfsr = s.lfsr := rfl
@[simp] theorem addResponse_reg (r : List Byte) : (s.addResponse r).reg = s.reg := rfl
@[simp] theorem addResponse_nv (r : List Byte) : (s.addResponse r).nv = s.nv := rfl
@[simp] theorem addResponse_cold (r : List Byte) : (s.addResponse r).cold = s.cold := rfl
@[simp] theorem addResponse_events (r : List Byte) : (s.addResponse r).events = s.events := rfl
@[simp] theorem addResponse_responses (r : List Byte) : (s.addResponse r).responses = s.responses ++ [r] := rfl

end State

/-! ### The response and raise -/

@[simp] theorem respond_eq (st : Status) (payload : List Byte) (s : State) :
    respond st payload s = s.addResponse (statusCode st :: payload) := rfl

theorem raise_eq (st : Status) (s : State) : raise st s = .next (s.addResponse [statusCode st]) := rfl

/-! ### Persist, field by field -/

@[simp] theorem persist_lfsr (s : State) : (persist s).lfsr = s.lfsr := rfl
@[simp] theorem persist_reg (s : State) : (persist s).reg = s.reg := rfl
@[simp] theorem persist_nv (s : State) : (persist s).nv = nvImage (regRead s.reg) := rfl
@[simp] theorem persist_cold (s : State) : (persist s).cold = s.cold := rfl
@[simp] theorem persist_events (s : State) : (persist s).events = s.events := rfl
@[simp] theorem persist_responses (s : State) : (persist s).responses = s.responses := rfl

/-! ### Reset, field by field -/

@[simp] theorem resetBlock_lfsr (v : Lfsr) (s : State) : (resetBlock v s).lfsr = v := rfl
@[simp] theorem resetBlock_reg (v : Lfsr) (s : State) :
    (resetBlock v s).reg = regImage (if s.cold then fun _ => Config.terminator else nvRead s.nv) := rfl
@[simp] theorem resetBlock_nv (v : Lfsr) (s : State) : (resetBlock v s).nv = s.nv := rfl
@[simp] theorem resetBlock_cold (v : Lfsr) (s : State) : (resetBlock v s).cold = s.cold := rfl
@[simp] theorem resetBlock_events (v : Lfsr) (s : State) : (resetBlock v s).events = s.events := rfl
@[simp] theorem resetBlock_responses (v : Lfsr) (s : State) : (resetBlock v s).responses = s.responses := rfl

/-! ### The end of a mutating command -/

/-- Everything `finishPlan` can answer: a plan that answers changes nothing but the responses, a plan that commits
writes the image to both memories. -/
theorem finishPlan_next {p : Plan} {s t : State} (h : finishPlan p s = .next t) :
    (∃ st, p = .answer st ∧ t = s.addResponse [statusCode st]) ∨
      ∃ m, p = .commit m ∧ t = ((s.setReg m).setNv (nvImage (regRead m))).addResponse [statusCode .ok] := by
  cases p with
  | answer st => exact .inl ⟨st, rfl, by simpa [finishPlan, raise_eq] using h.symm⟩
  | refuse r => simp [finishPlan] at h
  | commit m => exact .inr ⟨m, rfl, by simpa [finishPlan, persist] using h.symm⟩

end Sys2Proof.Machine
end

