-- ==== Sys2Proof/Laws/Memory.lean ====
section
/-! SUPPORT. The two memories: a read after a write, whole images, slots, and the canonical form that every memory
operation keeps. -/

namespace Sys2Proof.Machine

/-! ### Cells -/

@[simp] theorem cellLookup_cellStore (m : Memory) (a b : Nat) (v : Byte) :
    cellLookup (cellStore m a v) b = if a = b then some v else cellLookup m b := by
  induction m with
  | nil => simp [cellStore, cellLookup]
  | cons c m ih =>
    obtain ⟨d, w⟩ := c
    simp only [cellStore]
    by_cases h₁ : a < d
    · simp [h₁, cellLookup]
    · by_cases h₂ : a = d
      · subst h₂
        by_cases h₃ : a = b <;> simp [cellLookup, h₃]
      · simp only [h₁, h₂, if_false, cellLookup, ih]
        by_cases h₃ : d = b
        · have : a ≠ b := by omega
          simp [h₃, this]
        · simp [h₃]

@[simp] theorem cellLookup_cellErase (m : Memory) (a b : Nat) :
    cellLookup (cellErase m a) b = if a = b then none else cellLookup m b := by
  induction m with
  | nil => simp [cellErase, cellLookup]
  | cons c m ih =>
    obtain ⟨d, w⟩ := c
    by_cases h₁ : d = a <;> by_cases h₂ : a = b <;> simp_all [cellErase, cellLookup]

/-! ### Bytes of REG -/

/-- A read after a write to REG (R35): the value written, and every other byte as before. -/
@[simp] theorem regRead_regWrite (m : Memory) (a b : Addr) (v : Byte) :
    regRead (regWrite m a v) b = if a = b then v else regRead m b := by
  by_cases hv : v = Config.terminator <;> by_cases hab : a = b <;>
    simp_all [regRead, regWrite, Fin.val_inj]

@[simp] theorem regRead_nil (a : Addr) : regRead [] a = Config.terminator := rfl

/-! ### Whole images -/

theorem cellLookup_map (f : Addr → Byte) (l : List Addr) (a : Addr) :
    cellLookup (l.map fun b => (b.val, f b)) a.val = if a ∈ l then some (f a) else none := by
  induction l with
  | nil => simp [cellLookup]
  | cons b l ih =>
    by_cases h : b = a
    · simp [cellLookup, h]
    · have h' : a ≠ b := fun e => h e.symm
      simp [cellLookup, ih, Fin.val_inj, h, h']

theorem cellLookup_filterMap (f : Addr → Byte) (l : List Addr) (a : Addr) :
    cellLookup (l.filterMap fun b => if f b = Config.terminator then none else some (b.val, f b)) a.val =
      if a ∈ l ∧ f a ≠ Config.terminator then some (f a) else none := by
  induction l with
  | nil => simp [cellLookup]
  | cons b l ih =>
    by_cases h : b = a
    · subst h
      by_cases hf : f b = Config.terminator
      · simp [hf, ih]
      · simp [hf, cellLookup]
    · have h' : a ≠ b := fun e => h e.symm
      by_cases hf : f b = Config.terminator <;>
        simp [hf, ih, cellLookup, Fin.val_inj, h, h']

/-- NV holding the bytes `f` reads as `f` (R36, R110). -/
@[simp] theorem nvRead_nvImage (f : Addr → Byte) (a : Addr) : nvRead (nvImage f) a = f a := by
  simp [nvRead, nvImage, cellLookup_map]

/-- REG holding the bytes `f` reads as `f` (R105). -/
@[simp] theorem regRead_regImage (f : Addr → Byte) (a : Addr) : regRead (regImage f) a = f a := by
  by_cases h : f a = Config.terminator <;> simp [regRead, regImage, cellLookup_filterMap, h]

/-! ### Slots -/

@[simp] theorem slotAddr_inj (j k : SlotIdx) (o p : SlotOff) : slotAddr j o = slotAddr k p ↔ j = k ∧ o = p := by
  simp only [slotAddr, Fin.ext_iff]
  omega

/-- Every address is a byte of exactly one slot (R26: no gaps, no reserved bytes). -/
theorem exists_slotAddr (a : Addr) : ∃ k o, a = slotAddr k o :=
  ⟨⟨a.val / 5, by omega⟩, ⟨a.val % 5, by omega⟩, Fin.ext (by simp only [slotAddr]; omega)⟩

theorem slotAddr_val (k : SlotIdx) (o : SlotOff) : (slotAddr k o).val = 5 * k.val + o.val := rfl

/-- A byte of an entry by its offset (R15). -/
def Entry.byte (e : Entry) (o : SlotOff) : Byte := [e.id0, e.id1, e.id2, e.id3, e.type][o]

theorem regRead_slotAddr (m : Memory) (k : SlotIdx) (o : SlotOff) :
    regRead m (slotAddr k o) = (readSlot m k).byte o := by
  fin_cases o <;> rfl

theorem Entry.ext_byte {e f : Entry} (h : ∀ o, e.byte o = f.byte o) : e = f := by
  obtain ⟨a, b, c, d, t⟩ := e
  obtain ⟨a', b', c', d', t'⟩ := f
  have h0 := h 0; have h1 := h 1; have h2 := h 2; have h3 := h 3; have h4 := h 4
  simp [Entry.byte] at h0 h1 h2 h3 h4
  simp [h0, h1, h2, h3, h4]

/-- A slot after a slot is written (R7, R78): the entry written, and every other slot as before. -/
@[simp] theorem readSlot_writeSlot (m : Memory) (j k : SlotIdx) (e : Entry) :
    readSlot (writeSlot m k e) j = if k = j then e else readSlot m j := by
  by_cases h : k = j
  · subst h
    simp [readSlot, writeSlot]
  · simp [readSlot, writeSlot, h]

/-- A byte after a slot is written. -/
theorem regRead_writeSlot (m : Memory) (k : SlotIdx) (e : Entry) (a : Addr) :
    regRead (writeSlot m k e) a =
      if h : 5 * k.val ≤ a.val ∧ a.val < 5 * k.val + 5 then e.byte ⟨a.val - 5 * k.val, by omega⟩ else regRead m a := by
  obtain ⟨j, o, rfl⟩ := exists_slotAddr a
  rw [regRead_slotAddr, readSlot_writeSlot]
  by_cases h : k = j
  · subst h
    have hr : 5 * k.val ≤ (slotAddr k o).val ∧ (slotAddr k o).val < 5 * k.val + 5 := by
      rw [slotAddr_val]; omega
    rw [if_pos rfl, dif_pos hr]
    congr 1
    exact Fin.ext (by simp [slotAddr_val])
  · have hn : ¬(5 * k.val ≤ (slotAddr j o).val ∧ (slotAddr j o).val < 5 * k.val + 5) := by
      rw [slotAddr_val]
      have : k.val ≠ j.val := fun e => h (Fin.ext e)
      omega
    rw [if_neg h, dif_neg hn, regRead_slotAddr]

/-- Two images with the same slots read the same. -/
theorem regRead_eq_of_readSlot {m n : Memory} (h : ∀ k, readSlot m k = readSlot n k) (a : Addr) :
    regRead m a = regRead n a := by
  obtain ⟨k, o, rfl⟩ := exists_slotAddr a
  rw [regRead_slotAddr, regRead_slotAddr, h]

/-! ### The canonical form -/

theorem Memory.rising_iff (m : Memory) : m.rising = true ↔ m.Pairwise (fun c d => c.1 < d.1) := by
  induction m with
  | nil => simp [Memory.rising]
  | cons c m ih =>
    cases m with
    | nil => simp [Memory.rising]
    | cons d m =>
      obtain ⟨a, v⟩ := c
      obtain ⟨b, w⟩ := d
      rw [Memory.rising, Bool.and_eq_true, ih, decide_eq_true_iff]
      constructor
      · rintro ⟨hab, hp⟩
        refine List.Pairwise.cons (fun x hx => ?_) hp
        rcases List.mem_cons.mp hx with rfl | hx
        · exact hab
        · exact Nat.lt_trans hab ((List.pairwise_cons.mp hp).1 x hx)
      · intro hp
        obtain ⟨h₁, h₂⟩ := List.pairwise_cons.mp hp
        exact ⟨h₁ (b, w) (by simp), h₂⟩

theorem Memory.wf_iff (blank : Option Byte) (m : Memory) :
    Memory.wf blank m = true ↔ m.Pairwise (fun c d => c.1 < d.1) ∧ ∀ c ∈ m, c.1 < 100 ∧ some c.2 ≠ blank := by
  rw [Memory.wf, Bool.and_eq_true, Memory.rising_iff]
  simp [List.all_eq_true]

theorem mem_cellStore {m : Memory} {a : Nat} {v : Byte} {c : Host.Cell} (h : c ∈ cellStore m a v) :
    c = (a, v) ∨ c ∈ m := by
  induction m with
  | nil => simpa [cellStore] using h
  | cons d m ih =>
    obtain ⟨b, w⟩ := d
    simp only [cellStore] at h
    split at h
    · simpa using h
    · split at h
      · rcases List.mem_cons.mp h with h | h
        · exact .inl h
        · exact .inr (List.mem_cons_of_mem _ h)
      · rcases List.mem_cons.mp h with h | h
        · exact .inr (h ▸ List.mem_cons_self ..)
        · exact (ih h).imp id (List.mem_cons_of_mem _)

theorem cellStore_pairwise {m : Memory} (a : Nat) (v : Byte) (h : m.Pairwise fun c d => c.1 < d.1) :
    (cellStore m a v).Pairwise fun c d => c.1 < d.1 := by
  induction m with
  | nil => simp [cellStore]
  | cons c m ih =>
    obtain ⟨b, w⟩ := c
    obtain ⟨h₁, h₂⟩ := List.pairwise_cons.mp h
    simp only [cellStore]
    split
    · rename_i hab
      refine List.Pairwise.cons (fun x hx => ?_) h
      rcases List.mem_cons.mp hx with rfl | hx
      · exact hab
      · exact Nat.lt_trans hab (h₁ x hx)
    · split
      · rename_i hab
        exact List.Pairwise.cons (fun x hx => hab ▸ h₁ x hx) h₂
      · refine List.Pairwise.cons (fun x hx => ?_) (ih h₂)
        rcases mem_cellStore hx with rfl | hx
        · simp only
          omega
        · exact h₁ x hx

theorem cellErase_sublist (m : Memory) (a : Nat) : (cellErase m a).Sublist m := by
  induction m with
  | nil => exact .slnil
  | cons c m ih =>
    obtain ⟨b, w⟩ := c
    simp only [cellErase]
    split
    · exact .cons _ ih
    · exact .cons_cons _ ih

/-- A write to REG keeps the canonical form. -/
theorem wf_regWrite {m : Memory} (h : Memory.wf regBlank m = true) (a : Addr) (v : Byte) :
    Memory.wf regBlank (regWrite m a v) = true := by
  obtain ⟨hp, hc⟩ := (Memory.wf_iff _ _).mp h
  rw [Memory.wf_iff]
  unfold regWrite
  split
  · exact ⟨hp.sublist (cellErase_sublist m a), fun c hcm => hc c ((cellErase_sublist m a).subset hcm)⟩
  · rename_i hv
    refine ⟨cellStore_pairwise _ _ hp, fun c hcm => ?_⟩
    rcases mem_cellStore hcm with rfl | hcm
    · exact ⟨a.isLt, fun e => hv (Option.some.inj e)⟩
    · exact hc c hcm

/-- A slot write keeps the canonical form. -/
theorem wf_writeSlot {m : Memory} (h : Memory.wf regBlank m = true) (k : SlotIdx) (e : Entry) :
    Memory.wf regBlank (writeSlot m k e) = true :=
  wf_regWrite (wf_regWrite (wf_regWrite (wf_regWrite (wf_regWrite h _ _) _ _) _ _) _ _) _ _

/-- A whole image of NV is in canonical form. -/
theorem wf_nvImage (f : Addr → Byte) : Memory.wf nvBlank (nvImage f) = true := by
  rw [Memory.wf_iff]
  refine ⟨?_, fun c hc => ?_⟩
  · exact List.pairwise_map.mpr ((List.pairwise_lt_finRange 100).imp id)
  · obtain ⟨a, -, rfl⟩ := List.mem_map.mp hc
    exact ⟨a.isLt, by simp [nvBlank]⟩

/-- A whole image of REG is in canonical form. -/
theorem wf_regImage (f : Addr → Byte) : Memory.wf regBlank (regImage f) = true := by
  rw [Memory.wf_iff]
  refine ⟨?_, fun c hc => ?_⟩
  · refine List.pairwise_filterMap.mpr ((List.pairwise_lt_finRange 100).imp ?_)
    intro a b hab x hx y hy
    split at hx <;> split at hy <;> simp_all
    obtain ⟨rfl⟩ := hx
    obtain ⟨rfl⟩ := hy
    exact hab
  · obtain ⟨a, -, ha⟩ := List.mem_filterMap.mp hc
    split at ha
    · simp at ha
    · rename_i hf
      obtain rfl := Option.some.inj ha
      exact ⟨a.isLt, fun e => hf (Option.some.inj e)⟩

end Sys2Proof.Machine
end

