-- ==== Sys2Proof/Laws/Registry.lean ====
section
/-! SUPPORT. What the lookup, the compaction and the decisions of the registry commands can answer, said once each. -/

namespace Sys2Proof.Machine

/-! ### The least index -/

theorem finRange_find_some {n : Nat} {p : Fin n → Bool} {k : Fin n} :
    (List.finRange n).find? p = some k ↔ p k = true ∧ ∀ j, j.val < k.val → p j = false := by
  rw [List.find?_eq_some_iff_getElem]
  constructor
  · rintro ⟨hk, i, hi, hik, hlt⟩
    have hik' : i = k.val := by simpa using congrArg Fin.val hik
    refine ⟨hk, fun j hj => ?_⟩
    simpa using hlt j.val (by omega)
  · rintro ⟨hk, hlt⟩
    refine ⟨hk, k.val, by simp, by simp, fun j hj => ?_⟩
    simpa using hlt ⟨j, by omega⟩ hj

theorem finRange_find_none {n : Nat} {p : Fin n → Bool} :
    (List.finRange n).find? p = none ↔ ∀ j, p j = false := by
  simp [List.find?_eq_none]

/-! ### count_of -/

theorem firstEmpty_some {m : Memory} {c : SlotIdx} :
    firstEmpty m = some c ↔ slotEmpty m c = true ∧ ∀ j, j.val < c.val → slotEmpty m j = false :=
  finRange_find_some

theorem firstEmpty_none {m : Memory} : firstEmpty m = none ↔ ∀ j, slotEmpty m j = false :=
  finRange_find_none

theorem countOf_of_some {m : Memory} {c : SlotIdx} (h : firstEmpty m = some c) : countOf m = c.castSucc := by
  simp [countOf, h]

theorem countOf_of_none {m : Memory} (h : firstEmpty m = none) : countOf m = 20 := by
  simp [countOf, h]

theorem firstEmpty_of_lt {m : Memory} (h : (countOf m).val < 20) :
    firstEmpty m = some ⟨(countOf m).val, h⟩ := by
  cases hf : firstEmpty m with
  | none => rw [countOf_of_none hf] at h; exact absurd h (by decide)
  | some c => simp [countOf_of_some hf]

theorem firstEmpty_of_full {m : Memory} (h : (countOf m).val = 20) : firstEmpty m = none := by
  cases hf : firstEmpty m with
  | none => rfl
  | some c =>
    rw [countOf_of_some hf] at h
    exact absurd h (by simp; omega)

theorem slotEmpty_iff {m : Memory} {k : SlotIdx} : slotEmpty m k = true ↔ (readSlot m k).id0 = Config.terminator := by
  simp [slotEmpty, readSlot]

theorem slotEmpty_false_iff {m : Memory} {k : SlotIdx} :
    slotEmpty m k = false ↔ (readSlot m k).id0 ≠ Config.terminator := by
  simp [slotEmpty, readSlot]

/-- The slots of the valid prefix are occupied (R73). -/
theorem occupied_of_lt_count {m : Memory} {k : SlotIdx} (h : k.val < (countOf m).val) :
    (readSlot m k).id0 ≠ Config.terminator := by
  rw [← slotEmpty_false_iff]
  cases hf : firstEmpty m with
  | none => exact firstEmpty_none.mp hf k
  | some c => exact (firstEmpty_some.mp hf).2 k (by simpa [countOf_of_some hf] using h)

/-- A count is characterised by its slots. -/
theorem countOf_eq {m : Memory} {c : Count} (h₁ : ∀ k : SlotIdx, k.val < c.val → (readSlot m k).id0 ≠ Config.terminator)
    (h₂ : ∀ k : SlotIdx, k.val = c.val → (readSlot m k).id0 = Config.terminator) : countOf m = c := by
  by_cases hc : c.val < 20
  · have : firstEmpty m = some ⟨c.val, hc⟩ :=
      firstEmpty_some.mpr ⟨slotEmpty_iff.mpr (h₂ _ rfl), fun j hj => slotEmpty_false_iff.mpr (h₁ j hj)⟩
    rw [countOf_of_some this]
    rfl
  · have : firstEmpty m = none := firstEmpty_none.mpr fun j => slotEmpty_false_iff.mpr (h₁ j (by omega))
    rw [countOf_of_none this]
    exact Fin.ext (by have := c.isLt; simp; omega)

/-! ### Well-formed images -/

/-- The test of a well-formed image, with the count as the `c` of R17. -/
theorem imageWF_iff_at {m : Memory} : imageWF m = true ↔ WFAt (regRead m) (countOf m) := by
  constructor
  · intro h
    refine ⟨fun k hk => occupied_of_lt_count hk, fun a ha => ?_⟩
    have := (List.all_eq_true.mp h) a (List.mem_finRange a)
    simp only [Bool.or_eq_true, decide_eq_true_eq] at this
    exact this.resolve_left (by omega)
  · rintro ⟨-, h⟩
    refine List.all_eq_true.mpr fun a _ => ?_
    simp only [Bool.or_eq_true, decide_eq_true_eq]
    by_cases ha : a.val < 5 * (countOf m).val
    · exact .inl ha
    · exact .inr (h a (by omega))

/-- An image that passes the test is well-formed. -/
theorem wf_of_imageWF {m : Memory} (h : imageWF m = true) : WF (regRead m) := ⟨countOf m, imageWF_iff_at.mp h⟩

/-- On a well-formed image every slot from the count on is blank (R17). -/
theorem blank_of_count_le {m : Memory} (h : imageWF m = true) {k : SlotIdx} (hk : (countOf m).val ≤ k.val) :
    readSlot m k = blankEntry := by
  have hw := (imageWF_iff_at.mp h).2
  have h' : ∀ o, regRead m (slotAddr k o) = Config.terminator := fun o => hw _ (by rw [slotAddr_val]; omega)
  simp [readSlot, h', blankEntry]

/-- An image is well-formed when a prefix of its slots is occupied and every later slot is blank. -/
theorem imageWF_of_slots {m : Memory} {c : Count}
    (h₁ : ∀ k : SlotIdx, k.val < c.val → (readSlot m k).id0 ≠ Config.terminator)
    (h₂ : ∀ k : SlotIdx, c.val ≤ k.val → readSlot m k = blankEntry) : imageWF m = true ∧ countOf m = c := by
  have hc : countOf m = c := countOf_eq h₁ fun k hk => by rw [h₂ k (by omega)]; rfl
  refine ⟨imageWF_iff_at.mpr ⟨fun k hk => occupied_of_lt_count hk, fun a ha => ?_⟩, hc⟩
  obtain ⟨k, o, rfl⟩ := exists_slotAddr a
  rw [slotAddr_val, hc] at ha
  rw [regRead_slotAddr, h₂ k (by omega)]
  fin_cases o <;> rfl

/-! ### find -/

theorem slotMatches_iff {m : Memory} {id : List Byte} {k : SlotIdx} :
    slotMatches m id k = true ↔ entryId (readSlot m k) = id := by
  simp [slotMatches]

/-- `find` answers the least matching slot of the valid prefix (R74). -/
theorem findId_some {m : Memory} {id : List Byte} {p : SlotIdx} :
    findId m id = some p ↔ (p.val < (countOf m).val ∧ entryId (readSlot m p) = id) ∧
      ∀ j : SlotIdx, j.val < p.val → entryId (readSlot m j) ≠ id := by
  unfold findId
  rw [finRange_find_some]
  simp only [Bool.and_eq_true, decide_eq_true_eq, slotMatches_iff]
  constructor
  · rintro ⟨h₁, h₂⟩
    refine ⟨h₁, fun j hj he => ?_⟩
    have := h₂ j hj
    simp [slotMatches, he] at this
    omega
  · rintro ⟨h₁, h₂⟩
    exact ⟨h₁, fun j hj => by simp [slotMatches, h₂ j hj]⟩

theorem findId_none {m : Memory} {id : List Byte} :
    findId m id = none ↔ ∀ j : SlotIdx, j.val < (countOf m).val → entryId (readSlot m j) ≠ id := by
  unfold findId
  rw [finRange_find_none]
  simp [slotMatches]

/-- No slot of the valid prefix holds an identifier that begins with the terminator (R77). -/
theorem findId_terminator (m : Memory) (a b c : Byte) : findId m [Config.terminator, a, b, c] = none := by
  refine findId_none.mpr fun j hj h => occupied_of_lt_count hj ?_
  simpa [entryId] using (List.cons.inj h).1

/-! ### Compaction -/

/-- The ascending moves of R78, slot by slot: slot `k` gets what slot `k+1` held before. -/
theorem readSlot_shiftSlots (m : Memory) (p : SlotIdx) (c : Count) (j : SlotIdx) :
    readSlot (shiftSlots m p c) j =
      if h : p.val ≤ j.val ∧ j.val + 1 < c.val then readSlot m ⟨j.val + 1, by omega⟩ else readSlot m j := by
  have key : ∀ (l : List (Fin 19)) (n : Memory), l.Pairwise (· < ·) →
      readSlot (l.foldl (fun r k => if p.val ≤ k.val ∧ k.val + 1 < c.val
        then writeSlot r k.castSucc (readSlot r k.succ) else r) n) j =
      if h : (p.val ≤ j.val ∧ j.val + 1 < c.val) ∧ ∃ k ∈ l, k.val = j.val
        then readSlot n ⟨j.val + 1, by omega⟩ else readSlot n j := by
    intro l
    induction l with
    | nil => simp
    | cons k l ih =>
      intro n hl
      obtain ⟨hk, hl⟩ := List.pairwise_cons.mp hl
      rw [List.foldl_cons, ih _ hl]
      by_cases hc : p.val ≤ j.val ∧ j.val + 1 < c.val
      · by_cases hm : ∃ x ∈ l, x.val = j.val
        · obtain ⟨x, hx, hxj⟩ := hm
          have hkx : k.val < x.val := hk x hx
          rw [dif_pos ⟨hc, x, hx, hxj⟩, dif_pos ⟨hc, x, List.mem_cons_of_mem _ hx, hxj⟩]
          split
          · rw [readSlot_writeSlot, if_neg]
            intro e
            have := congrArg Fin.val e
            simp at this
            omega
          · rfl
        · rw [dif_neg (fun h => hm h.2)]
          by_cases hkj : k.val = j.val
          · rw [dif_pos ⟨hc, k, List.mem_cons_self .., hkj⟩, if_pos (by omega), readSlot_writeSlot,
              if_pos (Fin.ext (by simpa using hkj))]
            congr 1
            exact Fin.ext (by simp [hkj])
          · rw [dif_neg]
            · split
              · rw [readSlot_writeSlot, if_neg]
                intro e
                exact hkj (by simpa using congrArg Fin.val e)
              · rfl
            · rintro ⟨-, x, hx, hxj⟩
              rcases List.mem_cons.mp hx with rfl | hx
              · exact hkj hxj
              · exact hm ⟨x, hx, hxj⟩
      · rw [dif_neg (fun h => hc h.1), dif_neg (fun h => hc h.1)]
        split
        · rename_i hk'
          rw [readSlot_writeSlot, if_neg]
          intro e
          have := congrArg Fin.val e
          simp at this
          omega
        · rfl
  unfold shiftSlots
  rw [key _ _ (List.pairwise_lt_finRange 19)]
  by_cases hc : p.val ≤ j.val ∧ j.val + 1 < c.val
  · rw [dif_pos hc, dif_pos ⟨hc, ⟨j.val, by omega⟩, List.mem_finRange _, rfl⟩]
  · rw [dif_neg hc, dif_neg (fun h => hc h.1)]

/-- The image RER leaves, slot by slot (R78): the slots before `p` as before, each from `p` to `c-2` the one after it,
slot `c-1` blank, the slots from `c` on as before. -/
theorem readSlot_compact (m : Memory) (p : SlotIdx) (c : Count) (j : SlotIdx) :
    readSlot (compact m p c) j =
      if j.val = c.val - 1 then blankEntry
      else if h : p.val ≤ j.val ∧ j.val + 1 < c.val then readSlot m ⟨j.val + 1, by omega⟩ else readSlot m j := by
  rw [compact, readSlot_writeSlot, readSlot_shiftSlots]
  simp only [Fin.ext_iff, eq_comm]

/-- Compaction keeps the canonical form. -/
theorem wf_compact {m : Memory} (h : Memory.wf regBlank m = true) (p : SlotIdx) (c : Count) :
    Memory.wf regBlank (compact m p c) = true := by
  refine wf_writeSlot ?_ _ _
  unfold shiftSlots
  generalize List.finRange 19 = l
  induction l generalizing m with
  | nil => exact h
  | cons k l ih =>
    rw [List.foldl_cons]
    refine ih ?_
    split
    · exact wf_writeSlot h _ _
    · exact h

/-! ### The decisions of RWR and RER -/

/-- Everything RWR can decide (R76, R77, R72). -/
theorem rwrPlan_cases (td : Byte) (id : List Byte) (m : Memory) :
    (imageWF m = false ∧ rwrPlan td id m = .refuse .illFormedRegistry) ∨
    (imageWF m = true ∧ id.length ≠ 4 ∧ rwrPlan td id m = .answer .error) ∨
    (imageWF m = true ∧ id.length = 4 ∧ (∃ p, findId m id = some p) ∧ rwrPlan td id m = .answer .alreadyPresent) ∨
    (imageWF m = true ∧ id.length = 4 ∧ findId m id = none ∧ (countOf m).val = 20 ∧
      rwrPlan td id m = .answer .error) ∨
    (∃ a b c d, id = [a, b, c, d] ∧ imageWF m = true ∧ findId m id = none ∧ ∃ h : (countOf m).val < 20,
      (a = Config.terminator ∧ rwrPlan td id m = .refuse .terminatorIdentifier) ∨
      (a ≠ Config.terminator ∧
        rwrPlan td id m = .commit (writeSlot m ⟨(countOf m).val, h⟩ ⟨a, b, c, d, td⟩))) := by
  cases hw : imageWF m with
  | false => exact .inl ⟨rfl, by simp [rwrPlan, hw]⟩
  | true =>
    refine .inr ?_
    match id with
    | [] => exact .inl ⟨rfl, by simp, by simp [rwrPlan, hw]⟩
    | [_] => exact .inl ⟨rfl, by simp, by simp [rwrPlan, hw]⟩
    | [_, _] => exact .inl ⟨rfl, by simp, by simp [rwrPlan, hw]⟩
    | [_, _, _] => exact .inl ⟨rfl, by simp, by simp [rwrPlan, hw]⟩
    | _ :: _ :: _ :: _ :: _ :: _ => exact .inl ⟨rfl, by simp, by simp [rwrPlan, hw]⟩
    | [a, b, c, d] =>
      refine .inr ?_
      cases hf : findId m [a, b, c, d] with
      | some p => exact .inl ⟨rfl, rfl, ⟨p, rfl⟩, by simp [rwrPlan, hw, hf]⟩
      | none =>
        refine .inr ?_
        by_cases hc : (countOf m).val < 20
        · refine .inr ⟨a, b, c, d, rfl, rfl, rfl, hc, ?_⟩
          have he := firstEmpty_of_lt hc
          by_cases ha : a = Config.terminator
          · exact .inl ⟨ha, by simp [rwrPlan, hw, findId_terminator, he, ha]⟩
          · exact .inr ⟨ha, by simp [rwrPlan, hw, hf, he, ha]⟩
        · have hc' : (countOf m).val = 20 := by have := (countOf m).isLt; omega
          exact .inl ⟨rfl, rfl, rfl, hc', by simp [rwrPlan, hw, hf, firstEmpty_of_full hc']⟩

/-- Everything RER can decide (R78, R72). -/
theorem rerPlan_cases (id : List Byte) (m : Memory) :
    (imageWF m = false ∧ rerPlan id m = .refuse .illFormedRegistry) ∨
    (imageWF m = true ∧ id.length ≠ 4 ∧ rerPlan id m = .answer .error) ∨
    (imageWF m = true ∧ id.length = 4 ∧ findId m id = none ∧ rerPlan id m = .answer .notFound) ∨
    (imageWF m = true ∧ id.length = 4 ∧ ∃ p, findId m id = some p ∧
      rerPlan id m = .commit (compact m p (countOf m))) := by
  cases hw : imageWF m with
  | false => exact .inl ⟨rfl, by simp [rerPlan, hw]⟩
  | true =>
    refine .inr ?_
    by_cases hl : id.length = 4
    · refine .inr ?_
      cases hf : findId m id with
      | none => exact .inl ⟨rfl, hl, rfl, by simp [rerPlan, hw, hf, hl]⟩
      | some p => exact .inr ⟨rfl, hl, p, rfl, by simp [rerPlan, hw, hf, hl]⟩
    · exact .inl ⟨rfl, hl, by simp [rerPlan, hw, hl]⟩

/-- The image RWR appends to is well-formed again, one entry longer (R76, R82). -/
theorem append_spec {m : Memory} (hw : imageWF m = true) (h : (countOf m).val < 20) {e : Entry}
    (he : e.id0 ≠ Config.terminator) :
    imageWF (writeSlot m ⟨(countOf m).val, h⟩ e) = true ∧
      (countOf (writeSlot m ⟨(countOf m).val, h⟩ e)).val = (countOf m).val + 1 := by
  have := imageWF_of_slots (m := writeSlot m ⟨(countOf m).val, h⟩ e) (c := ⟨(countOf m).val + 1, by omega⟩)
    (fun k hk => by
      rw [readSlot_writeSlot]
      split
      · exact he
      · rename_i hne
        refine occupied_of_lt_count ?_
        have : k.val ≠ (countOf m).val := fun e => hne (Fin.ext e.symm)
        simp at hk
        omega)
    (fun k hk => by
      simp at hk
      rw [readSlot_writeSlot, if_neg (fun e => by have := congrArg Fin.val e; simp at this; omega)]
      exact blank_of_count_le hw (by omega))
  exact ⟨this.1, by rw [this.2]⟩

/-- The image RER compacts is well-formed again, one entry shorter (R78, R82). -/
theorem compact_spec {m : Memory} (hw : imageWF m = true) {p : SlotIdx} (hp : p.val < (countOf m).val) :
    imageWF (compact m p (countOf m)) = true ∧ (countOf (compact m p (countOf m))).val = (countOf m).val - 1 := by
  have := imageWF_of_slots (m := compact m p (countOf m)) (c := ⟨(countOf m).val - 1, by omega⟩)
    (fun k hk => by
      simp at hk
      rw [readSlot_compact, if_neg (by omega)]
      split
      · exact occupied_of_lt_count (by simp; omega)
      · exact occupied_of_lt_count (by omega))
    (fun k hk => by
      simp at hk
      rw [readSlot_compact]
      split
      · rfl
      · rw [dif_neg (by omega)]
        exact blank_of_count_le hw (by omega))
  exact ⟨this.1, by rw [this.2]⟩

end Sys2Proof.Machine
end

