-- ==== Sys2Proof/Laws/Scrambler.lean ====
section
/-! SUPPORT. What one bit and one byte of the transform do to the register and to the output. -/

namespace Sys2Proof.Machine

/-- The scrambled-side byte (R59): the output of the scrambler, the input of the descrambler. -/
def sentByte (mode : ScrMode) (input output : Byte) : Byte :=
  match mode with
  | .scramble => output
  | .descramble => input

theorem getLsbD_ofBool (b : Bool) (i : Nat) : (BitVec.ofBool b).getLsbD i = (b && decide (i = 0)) := by
  cases b <;> simp [BitVec.ofBool]

/-- One bit (R59): the output is the input xor the two taps. -/
theorem bitStep_out (mode : ScrMode) (s : Lfsr) (b : Bool) :
    (bitStep mode s b).2 = Bool.xor b (Bool.xor (s.getLsbD 18) (s.getLsbD 23)) := rfl

/-- One bit (R59): the register shifted left by one, with the scrambled-side bit at position 0. -/
theorem bitStep_reg (mode : ScrMode) (s : Lfsr) (b : Bool) (k : Nat) (hk : k < 24) :
    (bitStep mode s b).1[k] =
      if k = 0 then insertedBit mode b (bitStep mode s b).2 else s[k - 1] := by
  by_cases h : k = 0
  · subst h
    simp [bitStep, BitVec.getElem_setWidth]
  · rw [if_neg h]
    simp only [bitStep]
    rw [BitVec.getElem_or, BitVec.getElem_shiftLeft, BitVec.getElem_setWidth, getLsbD_ofBool]
    simp [h]

/-- One byte (R60): within a byte the taps still read the register the byte began with. -/
theorem byteStep_out (mode : ScrMode) (s : Lfsr) (B : Byte) (j : Nat) (hj : j < 8) :
    (byteStep mode s B).2.getLsbD j =
      Bool.xor (B.getLsbD j) (Bool.xor (s.getLsbD (11 + j)) (s.getLsbD (16 + j))) := by
  simp only [byteStep, bitsStep, bitStep_out]
  interval_cases j <;> simp [bitStep_reg]

/-- One byte (R60): the register shifted left by eight, with the scrambled-side byte in its low bits. -/
theorem byteStep_reg (mode : ScrMode) (s : Lfsr) (B : Byte) (k : Nat) (hk : k < 24) :
    (byteStep mode s B).1.getLsbD k =
      if k < 8 then (sentByte mode B (byteStep mode s B).2).getLsbD k else s.getLsbD (k - 8) := by
  by_cases h : k < 8
  · rw [if_pos h]
    cases mode with
    | scramble =>
      rw [sentByte, byteStep_out _ _ _ _ h]
      simp only [byteStep, bitsStep]
      interval_cases k <;> simp [bitStep_reg, bitStep_out, insertedBit]
    | descramble =>
      rw [sentByte]
      simp only [byteStep, bitsStep]
      interval_cases k <;> simp [bitStep_reg, insertedBit]
  · rw [if_neg h]
    simp only [byteStep, bitsStep]
    interval_cases k <;> first | omega | simp [bitStep_reg]

/-- The output of a message is as long as its input (R61). -/
@[simp] theorem bytesStep_length (mode : ScrMode) (s : Lfsr) (data : List Byte) :
    (bytesStep mode s data).2.length = data.length := by
  induction data generalizing s with
  | nil => rfl
  | cons B data ih => simp [bytesStep, ih]

/-- A message in two parts (R61): the register is carried from the first to the second. -/
theorem bytesStep_append (mode : ScrMode) (s : Lfsr) (X Y : List Byte) :
    bytesStep mode s (X ++ Y) =
      ((bytesStep mode (bytesStep mode s X).1 Y).1, (bytesStep mode s X).2 ++ (bytesStep mode (bytesStep mode s X).1 Y).2) := by
  induction X generalizing s with
  | nil => simp [bytesStep]
  | cons B X ih => simp [bytesStep, ih]

/-- SCR and DSC answer with OK and the transform, and touch `LFSR` and nothing else (R62, R63). -/
theorem runXform_next (mode : ScrMode) (a b c : Byte) (data : List Byte) (s : State) :
    runXform mode a b c data s =
      .next ((s.setLfsr (xformLfsr mode a b c data)).addResponse (statusCode .ok :: xform mode a b c data)) := rfl

end Sys2Proof.Machine
end

