-- ==== Sys2Proof/Laws/Exec.lean ====
section
/-! SUPPORT. Everything each command of the registry can answer, everything a command can do to the state, and
everything a step can do. -/

namespace Sys2Proof.Machine

/-- The state a mutating command leaves when it commits the image `m`: both memories, and the OK response (R36, R83). -/
def commitState (s : State) (m : Memory) : State :=
  ((s.setReg m).setNv (nvImage (regRead m))).addResponse [0x00]

@[simp] theorem commitState_reg (s : State) (m : Memory) : (commitState s m).reg = m := rfl
@[simp] theorem commitState_nv (s : State) (m : Memory) : (commitState s m).nv = nvImage (regRead m) := rfl
@[simp] theorem commitState_lfsr (s : State) (m : Memory) : (commitState s m).lfsr = s.lfsr := rfl
@[simp] theorem commitState_cold (s : State) (m : Memory) : (commitState s m).cold = s.cold := rfl
@[simp] theorem commitState_events (s : State) (m : Memory) : (commitState s m).events = s.events := rfl
@[simp] theorem commitState_responses (s : State) (m : Memory) :
    (commitState s m).responses = s.responses ++ [[0x00]] := rfl

theorem finishPlan_answer (st : Status) (s : State) :
    finishPlan (.answer st) s = .next (s.addResponse [statusCode st]) := rfl

theorem finishPlan_refuse (r : Refusal) (s : State) : finishPlan (.refuse r) s = .refused r := rfl

theorem finishPlan_commit (m : Memory) (s : State) : finishPlan (.commit m) s = .next (commitState s m) := rfl

/-! ### The registry commands, case by case -/

/-- RWR (R76, R77, R72). -/
theorem execRwr_cases (id : List Byte) (s : State) :
    (imageWF s.reg = false ∧ execRwr id s = .refused .illFormedRegistry) ∨
    (imageWF s.reg = true ∧ id.length ≠ 4 ∧ execRwr id s = .next (s.addResponse [0x03])) ∨
    (imageWF s.reg = true ∧ id.length = 4 ∧ findId s.reg id ≠ none ∧ execRwr id s = .next (s.addResponse [0x01])) ∨
    (imageWF s.reg = true ∧ id.length = 4 ∧ findId s.reg id = none ∧ (countOf s.reg).val = 20 ∧
      execRwr id s = .next (s.addResponse [0x03])) ∨
    (imageWF s.reg = true ∧ id.length = 4 ∧ findId s.reg id = none ∧ (countOf s.reg).val < 20 ∧
      id.head? = some Config.terminator ∧ execRwr id s = .refused .terminatorIdentifier) ∨
    (∃ a b c d, id = [a, b, c, d] ∧ a ≠ Config.terminator ∧ imageWF s.reg = true ∧ findId s.reg id = none ∧
      ∃ h : (countOf s.reg).val < 20, execRwr id s =
        .next (commitState s (writeSlot s.reg ⟨(countOf s.reg).val, h⟩ ⟨a, b, c, d, Config.typeDefault⟩))) := by
  unfold execRwr
  rcases rwrPlan_cases Config.typeDefault id s.reg with
    ⟨hw, e⟩ | ⟨hw, hl, e⟩ | ⟨hw, hl, ⟨p, hp⟩, e⟩ | ⟨hw, hl, hf, hc, e⟩ | ⟨a, b, c, d, rfl, hw, hf, hc, ⟨ha, e⟩ | ⟨ha, e⟩⟩
  · exact .inl ⟨hw, by rw [e, finishPlan_refuse]⟩
  · exact .inr (.inl ⟨hw, hl, by rw [e, finishPlan_answer, statusCode]⟩)
  · exact .inr (.inr (.inl ⟨hw, hl, by simp [hp], by rw [e, finishPlan_answer, statusCode]⟩))
  · exact .inr (.inr (.inr (.inl ⟨hw, hl, hf, hc, by rw [e, finishPlan_answer, statusCode]⟩)))
  · exact .inr (.inr (.inr (.inr (.inl ⟨hw, rfl, hf, hc, by simp [ha], by rw [e, finishPlan_refuse]⟩))))
  · exact .inr (.inr (.inr (.inr (.inr ⟨a, b, c, d, rfl, ha, hw, hf, hc, by rw [e, finishPlan_commit]⟩))))

/-- RER (R78, R72). -/
theorem execRer_cases (id : List Byte) (s : State) :
    (imageWF s.reg = false ∧ execRer id s = .refused .illFormedRegistry) ∨
    (imageWF s.reg = true ∧ id.length ≠ 4 ∧ execRer id s = .next (s.addResponse [0x03])) ∨
    (imageWF s.reg = true ∧ id.length = 4 ∧ findId s.reg id = none ∧ execRer id s = .next (s.addResponse [0x02])) ∨
    (imageWF s.reg = true ∧ id.length = 4 ∧ ∃ p, findId s.reg id = some p ∧
      execRer id s = .next (commitState s (compact s.reg p (countOf s.reg)))) := by
  unfold execRer
  rcases rerPlan_cases id s.reg with ⟨hw, e⟩ | ⟨hw, hl, e⟩ | ⟨hw, hl, hf, e⟩ | ⟨hw, hl, p, hf, e⟩
  · exact .inl ⟨hw, by rw [e, finishPlan_refuse]⟩
  · exact .inr (.inl ⟨hw, hl, by rw [e, finishPlan_answer, statusCode]⟩)
  · exact .inr (.inr (.inl ⟨hw, hl, hf, by rw [e, finishPlan_answer, statusCode]⟩))
  · exact .inr (.inr (.inr ⟨hw, hl, p, hf, by rw [e, finishPlan_commit]⟩))

/-- RWR where it appends. -/
theorem execRwr_commit {a b c d : Byte} {s : State} (hw : imageWF s.reg = true) (hf : findId s.reg [a, b, c, d] = none)
    (hc : (countOf s.reg).val < 20) (ha : a ≠ Config.terminator) :
    execRwr [a, b, c, d] s =
      .next (commitState s (writeSlot s.reg ⟨(countOf s.reg).val, hc⟩ ⟨a, b, c, d, Config.typeDefault⟩)) := by
  simp [execRwr, rwrPlan, hw, hf, firstEmpty_of_lt hc, ha, finishPlan_commit]

/-- RER where it removes. -/
theorem execRer_commit {id : List Byte} {s : State} {p : SlotIdx} (hw : imageWF s.reg = true) (hl : id.length = 4)
    (hf : findId s.reg id = some p) :
    execRer id s = .next (commitState s (compact s.reg p (countOf s.reg))) := by
  simp [execRer, rerPlan, hw, hf, hl, finishPlan_commit]

/-- RPO (R80, R72). -/
theorem execRpo_cases (id : List Byte) (s : State) :
    (imageWF s.reg = false ∧ execRpo id s = .refused .illFormedRegistry) ∨
    (imageWF s.reg = true ∧ (id.length ≠ 4 ∨ findId s.reg id = none) ∧ execRpo id s = .next (s.addResponse [0x02])) ∨
    (imageWF s.reg = true ∧ id.length = 4 ∧ ∃ p, findId s.reg id = some p ∧
      execRpo id s = .next (s.addResponse [0x00, BitVec.ofNat 8 p.val])) := by
  cases hw : imageWF s.reg with
  | false => exact .inl ⟨rfl, by simp [execRpo, hw]⟩
  | true =>
    refine .inr ?_
    by_cases hl : id.length = 4
    · cases hf : findId s.reg id with
      | none => exact .inl ⟨rfl, .inr rfl, by simp [execRpo, hw, hf, hl, raise_eq, statusCode]⟩
      | some p => exact .inr ⟨rfl, hl, p, rfl, by simp [execRpo, hw, hf, hl, statusCode]⟩
    · exact .inl ⟨rfl, .inl hl, by simp [execRpo, hw, hl, raise_eq, statusCode]⟩

/-- RCT (R81, R72). -/
theorem execRct_cases (s : State) :
    (imageWF s.reg = false ∧ execRct s = .refused .illFormedRegistry) ∨
    (imageWF s.reg = true ∧
      execRct s = .next (s.addResponse [0x00, BitVec.ofNat 8 (countOf s.reg).val])) := by
  cases hw : imageWF s.reg <;> simp [execRct, hw, statusCode]

/-- RRD (R87). -/
theorem execRrd_cases (index : Byte) (s : State) :
    (19 < index.toNat ∧ execRrd index s = .next (s.addResponse [0xE3])) ∨
    (∃ h : index.toNat < 20,
      execRrd index s = .next (s.addResponse (0x00 :: entryBytes (readSlot s.reg ⟨index.toNat, h⟩)))) := by
  by_cases h : index.toNat < 20
  · exact .inr ⟨h, by simp [execRrd, indexOperand, h, statusCode]⟩
  · exact .inl ⟨by omega, by simp [execRrd, indexOperand, h, raise_eq, statusCode]⟩

/-! ### What a command can do to the state -/

/-- Every command that answers either only answers, or loads `LFSR` and answers OK, or appends, or compacts. -/
theorem exec_next {i : Instr} {s t : State} (h : exec i s = .next t) :
    (∃ r, t = s.addResponse r ∧ (mutates i = true → r ≠ [0x00]) ∧ loadsLfsr i = false) ∨
    (∃ v out, t = (s.setLfsr v).addResponse (0x00 :: out) ∧ loadsLfsr i = true) ∨
    (∃ a b c d, i = .rwr [a, b, c, d] ∧ a ≠ Config.terminator ∧ imageWF s.reg = true ∧
      findId s.reg [a, b, c, d] = none ∧ ∃ hc : (countOf s.reg).val < 20,
        t = commitState s (writeSlot s.reg ⟨(countOf s.reg).val, hc⟩ ⟨a, b, c, d, Config.typeDefault⟩)) ∨
    (∃ id p, i = .rer id ∧ id.length = 4 ∧ imageWF s.reg = true ∧ findId s.reg id = some p ∧
      t = commitState s (compact s.reg p (countOf s.reg))) := by
  cases i with
  | scr a b c data => exact .inr (.inl ⟨_, _, by simpa [exec, execScr, runXform, statusCode] using h.symm, rfl⟩)
  | dsc a b c data => exact .inr (.inl ⟨_, _, by simpa [exec, execDsc, runXform, statusCode] using h.symm, rfl⟩)
  | rwr id =>
    simp only [exec] at h
    rcases execRwr_cases id s with
      ⟨-, e⟩ | ⟨-, -, e⟩ | ⟨-, -, -, e⟩ | ⟨-, -, -, -, e⟩ | ⟨-, -, -, -, -, e⟩ | ⟨a, b, c, d, rfl, ha, hw, hf, hc, e⟩ <;>
      rw [e] at h
    · simp at h
    · exact .inl ⟨_, by simpa using h.symm, by simp, rfl⟩
    · exact .inl ⟨_, by simpa using h.symm, by simp, rfl⟩
    · exact .inl ⟨_, by simpa using h.symm, by simp, rfl⟩
    · simp at h
    · exact .inr (.inr (.inl ⟨a, b, c, d, rfl, ha, hw, hf, hc, by simpa using h.symm⟩))
  | rer id =>
    simp only [exec] at h
    rcases execRer_cases id s with ⟨-, e⟩ | ⟨-, -, e⟩ | ⟨-, -, -, e⟩ | ⟨hw, hl, p, hf, e⟩ <;> rw [e] at h
    · simp at h
    · exact .inl ⟨_, by simpa using h.symm, by simp, rfl⟩
    · exact .inl ⟨_, by simpa using h.symm, by simp, rfl⟩
    · exact .inr (.inr (.inr ⟨id, p, rfl, hl, hw, hf, by simpa using h.symm⟩))
  | rpo id =>
    simp only [exec] at h
    rcases execRpo_cases id s with ⟨-, e⟩ | ⟨-, -, e⟩ | ⟨-, -, p, -, e⟩ <;> rw [e] at h
    · simp at h
    · exact .inl ⟨_, by simpa using h.symm, by simp [mutates], rfl⟩
    · exact .inl ⟨_, by simpa using h.symm, by simp [mutates], rfl⟩
  | rct =>
    simp only [exec] at h
    rcases execRct_cases s with ⟨-, e⟩ | ⟨-, e⟩ <;> rw [e] at h
    · simp at h
    · exact .inl ⟨_, by simpa using h.symm, by simp [mutates], rfl⟩
  | rrd index =>
    simp only [exec] at h
    rcases execRrd_cases index s with ⟨-, e⟩ | ⟨_, e⟩ <;> rw [e] at h <;>
      exact .inl ⟨_, by simpa using h.symm, by simp [mutates], rfl⟩

/-! ### What a step can do -/

/-- Every step that answers is idle, answers a byte list that is no command, runs a command, or resets, with `NV` as it
was or, after a cut, as `cutNv` says. -/
theorem step_next {s t : State} (h : step s = .next t) :
    (s.events = [] ∧ t = s) ∨
    (∃ C rest st, s.events = .command C :: rest ∧ decode C = .error st ∧
      t = (s.setEvents rest).addResponse [statusCode st]) ∨
    (∃ C rest i, s.events = .command C :: rest ∧ decode C = .ok i ∧ exec i (s.setEvents rest) = .next t) ∨
    (∃ cold v rest, s.events = .reset cold v :: rest ∧ t = runReset cold v (s.setEvents rest)) ∨
    (∃ C point cold v rest m, s.events = .cut C point cold v :: rest ∧ cutNv C point (s.setEvents rest) = .ok m ∧
      t = runReset cold v ((s.setEvents rest).setNv m)) := by
  unfold step at h
  cases he : s.events with
  | nil => exact .inl ⟨rfl, by simpa [he] using h.symm⟩
  | cons e rest =>
    refine .inr ?_
    rw [he] at h
    cases e with
    | command C =>
      simp only [runEvent, runCommand] at h
      cases hd : decode C with
      | error st => exact .inl ⟨C, rest, st, rfl, hd, by simpa [hd, raise_eq] using h.symm⟩
      | ok i => exact .inr (.inl ⟨C, rest, i, rfl, hd, by simpa [hd] using h⟩)
    | reset cold v => exact .inr (.inr (.inl ⟨cold, v, rest, rfl, by simpa [runEvent] using h.symm⟩))
    | cut C point cold v =>
      simp only [runEvent, runCut] at h
      cases hc : cutNv C point (s.setEvents rest) with
      | error r => simp [hc] at h
      | ok m => exact .inr (.inr (.inr ⟨C, point, cold, v, rest, m, rfl, hc, by simpa [hc] using h.symm⟩))

/-- `NV` as a cut finds it: as it was, or a whole image (R109, R110). -/
theorem cutNv_ok {C : List Byte} {point : CutPoint} {s : State} {m : Memory} (h : cutNv C point s = .ok m) :
    m = s.nv ∨ ∃ f, m = nvImage f := by
  unfold cutNv at h
  (repeat' split at h) <;> first
    | exact .inl (by simpa using h.symm)
    | exact .inr ⟨_, by simpa using h.symm⟩

@[simp] theorem runReset_reg (cold : Bool) (v : Lfsr) (s : State) :
    (runReset cold v s).reg = regImage (if cold then fun _ => Config.terminator else nvRead s.nv) :=
  resetBlock_reg v (s.setCold cold)
@[simp] theorem runReset_nv (cold : Bool) (v : Lfsr) (s : State) : (runReset cold v s).nv = s.nv := rfl
@[simp] theorem runReset_lfsr (cold : Bool) (v : Lfsr) (s : State) : (runReset cold v s).lfsr = v := rfl
@[simp] theorem runReset_cold (cold : Bool) (v : Lfsr) (s : State) : (runReset cold v s).cold = cold := rfl
@[simp] theorem runReset_events (cold : Bool) (v : Lfsr) (s : State) : (runReset cold v s).events = s.events := rfl
@[simp] theorem runReset_responses (cold : Bool) (v : Lfsr) (s : State) :
    (runReset cold v s).responses = s.responses := rfl

/-! ### Runs -/

/-- A run of one step more, when that step answers. -/
theorem core_run_succ {s t : State} (k : Nat) (h : step s = .next t) :
    Host.Core.run Sys2Proof.core (k + 1) s = Host.Core.run Sys2Proof.core k t := by
  have h' : Sys2Proof.core.step s = .next t := h
  simp only [Host.Core.run, h']

end Sys2Proof.Machine
end

