-- ==== Sys2Proof/Laws/PerInstr.lean ====
section
/-! SUPPORT. One lemma per command about its encoding as a byte list. -/

namespace Sys2Proof.Laws.EncodingForm

/-- The length a command's format gives it (30_encoding.md R46). -/
def formatLength : Instr → Nat
  | .scr _ _ _ data => 5 + data.length
  | .dsc _ _ _ data => 5 + data.length
  | .rwr id => 2 + id.length
  | .rer id => 2 + id.length
  | .rpo id => 2 + id.length
  | .rct => 1
  | .rrd _ => 2

/-- The opcode of spec/opcode_table.json (R44). -/
def opcode : Instr → Byte
  | .scr _ _ _ _ => 0x01
  | .dsc _ _ _ _ => 0x02
  | .rwr _ => 0x10
  | .rer _ => 0x11
  | .rpo _ => 0x12
  | .rct => 0x13
  | .rrd _ => 0x14

/-- A command's bytes begin with its opcode and are as many as its format says. -/
def Statement (i : Instr) : Prop := (encode i).head? = some (opcode i) ∧ (encode i).length = formatLength i

theorem scr (seed0 seed1 seed2 : Byte) (data : List Byte) : Statement (.scr seed0 seed1 seed2 data) :=
  ⟨rfl, by simp only [encode, formatLength, List.length_cons]; omega⟩

theorem dsc (seed0 seed1 seed2 : Byte) (data : List Byte) : Statement (.dsc seed0 seed1 seed2 data) :=
  ⟨rfl, by simp only [encode, formatLength, List.length_cons]; omega⟩

theorem rwr (id : List Byte) : Statement (.rwr id) := ⟨rfl, by simp only [encode, formatLength, List.length_cons]; omega⟩

theorem rer (id : List Byte) : Statement (.rer id) := ⟨rfl, by simp only [encode, formatLength, List.length_cons]; omega⟩

theorem rpo (id : List Byte) : Statement (.rpo id) := ⟨rfl, by simp only [encode, formatLength, List.length_cons]; omega⟩

theorem rct : Statement .rct := ⟨rfl, rfl⟩

theorem rrd (index : Byte) : Statement (.rrd index) := ⟨rfl, rfl⟩

end Sys2Proof.Laws.EncodingForm
end

