-- ==== Sys2Proof/Tests/Slice0.lean ====
section
/-! SUPPORT. The model's own tests: the check on terms, decoding of byte lists written out from the formats, one or two
small steps of each command against 95_test_vectors.md, and for each statement that has hypotheses a concrete state and
operands that meet them. `0x55` stands for TYPE_DEFAULT where a test needs a byte. -/

namespace Sys2Proof.Tests

open Sys2Proof.Machine

/-! ### Small states -/

/-- A state with the working image `m` and the events `es`. -/
def stateOf (m : Memory) (es : List Event) : State := (State.reset.setReg m).setEvents es

/-- The registry of 95_test_vectors.md with A in slot 0. -/
def regA : Memory := writeSlot [] 0 ⟨0x31, 0x32, 0x33, 0x34, 0x55⟩

/-- A and B in slots 0 and 1. -/
def regAB : Memory := writeSlot regA 1 ⟨0x41, 0x42, 0x43, 0x44, 0x55⟩

/-- A, B and C in slots 0 to 2. -/
def regABC : Memory := writeSlot regAB 2 ⟨0x51, 0x52, 0x53, 0x54, 0x55⟩

/-- The first `n` entries of program P3 of 95_test_vectors.md. -/
def regP3 (n : Nat) : Memory :=
  ((List.finRange 20).take n).foldl (fun m k => writeSlot m k ⟨BitVec.ofNat 8 (0x10 + k.val), 0xAA, 0xBB, 0xCC, 0x55⟩) []

/-- An image that is not well-formed: slot 0 reads as empty, and byte 1 is not the terminator (P5, branch 2d). -/
def regIll : Memory := [(1, 0x42)]

/-- The responses after an outcome. -/
def answers : Host.Outcome State Fault Refusal → Option (List (List Byte))
  | .next t => some t.responses
  | .fault _ => none
  | .refused _ => none

/-- The refusal of an outcome. -/
def refusal : Host.Outcome State Fault Refusal → Option Refusal
  | .next _ => none
  | .fault _ => none
  | .refused r => some r

/-! ### WellFormed refuses an ill-formed term for each check -/

theorem test_scr_of_21_bytes_is_ill_formed : (Instr.scr 0 0 0 (List.replicate 21 0)).wellFormed = false := by decide
theorem test_dsc_of_21_bytes_is_ill_formed : (Instr.dsc 0 0 0 (List.replicate 21 0)).wellFormed = false := by decide
set_option maxRecDepth 8000 in
theorem test_rwr_of_256_bytes_is_ill_formed : (Instr.rwr (List.replicate 256 0)).wellFormed = false := by decide
set_option maxRecDepth 8000 in
theorem test_rer_of_256_bytes_is_ill_formed : (Instr.rer (List.replicate 256 0)).wellFormed = false := by decide
set_option maxRecDepth 8000 in
theorem test_rpo_of_256_bytes_is_ill_formed : (Instr.rpo (List.replicate 256 0)).wellFormed = false := by decide

/-! ### Decoding, from the formats of R41 to R43, the examples of R53 and the tables B6 and B7 -/

theorem test_decode_scr : decode [0x01, 0x12, 0x34, 0x56, 0x02, 0x44, 0x49] = .ok (.scr 0x12 0x34 0x56 [0x44, 0x49]) :=
  rfl
theorem test_decode_dsc : decode [0x02, 0x01, 0x02, 0x03, 0x01, 0x80] = .ok (.dsc 0x01 0x02 0x03 [0x80]) := rfl
theorem test_decode_rwr : decode [0x10, 0x04, 0x31, 0x32, 0x33, 0x34] = .ok (.rwr [0x31, 0x32, 0x33, 0x34]) := rfl
theorem test_decode_rer : decode [0x11, 0x03, 0x31, 0x32, 0x33] = .ok (.rer [0x31, 0x32, 0x33]) := rfl
theorem test_decode_rpo : decode [0x12, 0x00] = .ok (.rpo []) := rfl
theorem test_decode_rct : decode [0x13] = .ok .rct := rfl
theorem test_decode_rrd : decode [0x14, 0xFF] = .ok (.rrd 0xFF) := rfl
theorem test_decode_length_before_bound : decode [0x01, 0x00, 0x00, 0x00, 0x30] = .error .malformed := rfl
theorem test_decode_opcode_before_length : decode [0x05, 0xFF] = .error .illegalOpcode := rfl
theorem test_decode_bad_length : decode (0x02 :: 0x12 :: 0x34 :: 0x56 :: 0x15 :: List.replicate 21 0) = .error .badLength :=
  rfl
theorem test_decode_one_byte_short : decode [0x10, 0x04, 0x31, 0x32, 0x33] = .error .malformed := rfl

theorem test_table_word_scr : decodeTableWord 8 0x01 = some (.scr 0 0 0 []) := by decide
theorem test_table_word_rrd : decodeTableWord 16 0x0714 = some (.rrd 7) := by decide

/-! ### SCR and DSC: vectors V2, V8, B1 and B4 -/

theorem test_scr_v2 : answers (exec (.scr 0x12 0x34 0x56 [0x44, 0x49, 0x53, 0x43, 0x31, 0x32, 0x33, 0x34, 0x01]) State.reset) =
    some [[0x00, 0xD4, 0xFF, 0x1B, 0x08, 0x2D, 0x48, 0x3E, 0xB0, 0x4E]] := by decide
theorem test_scr_v8_impulse : xform .scramble 0 0 0 [0x80, 0, 0, 0, 0, 0] = [0x80, 0, 0x10, 0x80, 0x02, 0] := by decide
theorem test_dsc_b1 : answers (exec (.dsc 0x01 0x00 0x80 [0x25]) State.reset) = some [[0x00, 0xA5]] := by decide
theorem test_dsc_b4_wrong_seed :
    xform .descramble 0x13 0x34 0x56 [0xD4, 0xFF, 0x1B, 0x08, 0x2D, 0x48, 0x3E, 0xB0, 0x4E] =
      [0x44, 0x49, 0x72, 0x43, 0x31, 0x32, 0x33, 0x34, 0x01] := by decide

/-! ### The registry: scenario A2, table B7, programs P2 and P3 -/

theorem test_rwr_appends_after_the_last : rwrPlan 0x55 [0x51, 0x52, 0x53, 0x54] regAB = .commit regABC := by decide
set_option maxRecDepth 8000 in
theorem test_rwr_duplicate_on_full_registry :
    answers (exec (.rwr [0x15, 0xAA, 0xBB, 0xCC]) (stateOf (regP3 20) [])) = some [[0x01]] := by decide
theorem test_rer_moves_type_and_id_together :
    rerPlan [0x41, 0x42, 0x43, 0x44] regABC = .commit (writeSlot regA 1 ⟨0x51, 0x52, 0x53, 0x54, 0x55⟩) := by decide
theorem test_rer_terminator_pattern :
    answers (exec (.rer [0xFF, 0xFF, 0xFF, 0xFF]) (stateOf regA [])) = some [[0x02]] := by decide
set_option maxRecDepth 8000 in
theorem test_rpo_last_slot : answers (exec (.rpo [0x23, 0xAA, 0xBB, 0xCC]) (stateOf (regP3 20) [])) = some [[0x00, 0x13]] := by
  decide
theorem test_rpo_wrong_length : answers (exec (.rpo [0x31, 0x32, 0x33]) (stateOf regA [])) = some [[0x02]] := by decide
set_option maxRecDepth 8000 in
theorem test_rct_full : answers (exec .rct (stateOf (regP3 20) [])) = some [[0x00, 0x14]] := by decide
theorem test_rct_refused : refusal (exec .rct (stateOf regIll [])) = some .illFormedRegistry := by decide
theorem test_rrd_occupied : answers (exec (.rrd 0) (stateOf regA [])) = some [[0x00, 0x31, 0x32, 0x33, 0x34, 0x55]] := by
  decide
theorem test_rrd_index_20 : answers (exec (.rrd 0x14) (stateOf regA [])) = some [[0xE3]] := by decide

/-! ### Resets: table B8 -/

theorem test_cold_reset_empties_reg_and_keeps_nv :
    (runReset true 0 (State.reset.setNv (nvImage (regRead regA)))).reg = [] ∧
    nvRead (runReset true 0 (State.reset.setNv (nvImage (regRead regA)))).nv 0 = 0x31 := by decide
theorem test_warm_reset_loads_nv : (runReset false 0 (State.reset.setNv (nvImage (regRead regA)))).reg = regA := by decide

/-! ### Witnesses: hypotheses that can be met, at the ends of their ranges -/

theorem wf_regA : imageWF regA = true := by decide
theorem wf_regAB : imageWF regAB = true := by decide
theorem wf_regABC : imageWF regABC = true := by decide
set_option maxRecDepth 8000 in
theorem wf_full : imageWF (regP3 20) = true := by decide
set_option maxRecDepth 8000 in
theorem wf_nineteen : imageWF (regP3 19) = true := by decide

/-- RWR where it appends. -/
theorem rwr_answers_ok (m : Memory) (es : List Event) (a b c d : Byte) (hw : imageWF m = true)
    (hf : findId m [a, b, c, d] = none) (hc : (countOf m).val < 20) (ha : a ≠ Config.terminator) :
    ∃ t, exec (.rwr [a, b, c, d]) (stateOf m es) = .next t ∧ t.responses = (stateOf m es).responses ++ [[0x00]] :=
  ⟨commitState (stateOf m es) (writeSlot m ⟨(countOf m).val, hc⟩ ⟨a, b, c, d, Config.typeDefault⟩),
    execRwr_commit (s := stateOf m es) hw hf hc ha, rfl⟩

/-- RWR of an identifier that is present. -/
theorem rwr_present (m : Memory) (es : List Event) (id : List Byte) (p : SlotIdx) (hw : imageWF m = true)
    (hl : id.length = 4) (hf : findId m id = some p) :
    exec (.rwr id) (stateOf m es) = .next ((stateOf m es).addResponse [0x01]) := by
  have e : (stateOf m es).reg = m := rfl
  rcases execRwr_cases id (stateOf m es) with
    ⟨h, _⟩ | ⟨_, h, _⟩ | ⟨_, _, _, h⟩ | ⟨_, _, h, _⟩ | ⟨_, _, h, _⟩ | ⟨_, _, _, _, _, _, _, h, _⟩
  · exact absurd hw (by rw [← e, h]; decide)
  · exact absurd hl h
  · exact h
  all_goals rw [e, hf] at h; cases h

/-- RER where it removes. -/
theorem rer_answers_ok (m : Memory) (es : List Event) (id : List Byte) (p : SlotIdx) (hw : imageWF m = true)
    (hl : id.length = 4) (hf : findId m id = some p) :
    ∃ t, exec (.rer id) (stateOf m es) = .next t ∧ t.responses = (stateOf m es).responses ++ [[0x00]] :=
  ⟨commitState (stateOf m es) (compact m p (countOf m)), execRer_commit (s := stateOf m es) hw hl hf, rfl⟩

/-- An image whose test fails is not well-formed, from its first empty slot and a byte after it. -/
theorem not_wf_regIll : ¬WF (regRead regIll) := by
  rintro ⟨c, h₁, h₂⟩
  by_cases hc : c.val = 0
  · exact absurd (h₂ 1 (by simp [hc])) (by decide)
  · exact absurd (by decide) (h₁ 0 (by simp; omega))

set_option maxRecDepth 8000 in
theorem witness_DecodeOfEncode :
    (Instr.scr 0 0 0 (List.replicate 20 0)).wellFormed = true ∧ (Instr.rwr (List.replicate 255 0)).wellFormed = true ∧
    (Instr.rrd 0xFF).wellFormed = true :=
  by decide

theorem witness_EncodeOfDecode : decode [0x14, 0x13] = .ok (.rrd 0x13) := rfl

theorem witness_DecodeFollowsItsChecks :
    (0x15 : Byte) ∉ ([0x01, 0x02, 0x10, 0x11, 0x12, 0x13, 0x14] : List Byte) ∧
    ([0, 0, 0] : List Byte).length < 4 ∧ (List.replicate 19 (0 : Byte)).length ≠ (20 : Byte).toNat ∧
    ((List.replicate 21 (0 : Byte)).length = (21 : Byte).toNat ∧ 20 < (21 : Byte).toNat) ∧
    ((List.replicate 20 (0 : Byte)).length = (20 : Byte).toNat ∧ (20 : Byte).toNat ≤ 20) ∧
    ([0, 0, 0] : List Byte).length ≠ (4 : Byte).toNat ∧ ([] : List Byte).length = (0 : Byte).toNat ∧
    ([] : List Byte).length ≠ 1 ∧ ([0, 0] : List Byte).length ≠ 1 := by decide

theorem witness_StatusCodesOfTheTable : ∃ st, statusCode st = 0xE3 := ⟨.badIndex, rfl⟩

theorem witness_StepRunsTheDecodedCommand :
    (stateOf [] [.command [0x13]]).events = .command [0x13] :: [] ∧ decode [0x13] = .ok .rct := ⟨rfl, rfl⟩

theorem witness_UndecodableCommandIsAnswered :
    (stateOf [] [.command [0x05, 0xFF]]).events = .command [0x05, 0xFF] :: [] ∧
    decode [0x05, 0xFF] = .error .illegalOpcode := ⟨rfl, rfl⟩

theorem witness_IdleBlockStaysAsItIs : State.reset.events = [] := rfl

theorem witness_OneResponsePerCommand :
    (∃ t, step (stateOf [] [.command [0x14, 0x00]]) = .next t) ∧ (∃ t, step (stateOf [] [.reset false 0]) = .next t) ∧
    ∀ C rest, (stateOf [] [.reset false 0]).events ≠ .command C :: rest :=
  ⟨⟨_, rfl⟩, ⟨_, rfl⟩, fun _ _ h => by simp [stateOf] at h⟩

theorem witness_ResponsePayloads :
    (∃ t, exec (.rrd 0x13) State.reset = .next t) ∧ ∃ t, exec (.rrd 0x14) State.reset = .next t := ⟨⟨_, rfl⟩, ⟨_, rfl⟩⟩

theorem witness_OtherThanOkChangesNothing :
    ∃ t, step (stateOf [] [.command [0x14, 0x14]]) = .next t ∧ t.responses = (stateOf [] []).responses ++ [[0xE3]] :=
  ⟨_, rfl, rfl⟩

theorem witness_EachCommandWritesOnlyItsOwnState :
    (∃ t, exec (.rrd 0) State.reset = .next t) ∧ loadsLfsr (.rrd 0) = false ∧ mutates (.rrd 0) = false ∧
    (∃ t, exec (.scr 0 0 0 []) State.reset = .next t) ∧ mutates (.scr 0 0 0 []) = false := ⟨⟨_, rfl⟩, rfl, rfl, ⟨_, rfl⟩, rfl⟩

theorem witness_CommandsRunExactlyWhereTheyHaveAMeaning : HasMeaning .rct regA ∧ ¬HasMeaning .rct regIll ∧
    HasMeaning (.rwr [0xFF, 0, 0, 0]) (regP3 20) ∧ ¬HasMeaning (.rwr [0xFF, 0, 0, 0]) (regP3 19) :=
  ⟨⟨fun _ => wf_of_imageWF wf_regA, fun h => absurd h (by decide)⟩, fun h => not_wf_regIll (h.1 rfl),
    ⟨fun _ => wf_of_imageWF wf_full, fun _ => by decide⟩, fun h => absurd (h.2 rfl) (by decide)⟩

theorem witness_LfsrIsUnobservable :
    (∃ t, step (stateOf [] [.command [0x14, 0x00]]) = .next t) ∧
    step (stateOf regIll [.command [0x13]]) = .refused .illFormedRegistry :=
  ⟨⟨_, rfl⟩, by
    rcases execRct_cases (stateOf regIll []) with ⟨_, e⟩ | ⟨h, _⟩
    · exact e
    · exact absurd h (by decide)⟩

theorem witness_SeedLoadsLowByteFirst : 7 < 8 ∧ (lfsrInit 0x80 0x00 0x80).getLsbD 7 = true := by decide

theorem witness_BitStepReadsTapsThenShifts : 22 < 23 ∧ (bitStep .descramble 0x400000 false).1.getLsbD 23 = true := by
  decide

theorem witness_ScrCompletesWithTheScramblerRecurrence : 47 < 8 * ([0x80, 0, 0, 0, 0, 0] : List Byte).length := by decide

theorem witness_DscCompletesWithTheDescramblerRecurrence : 7 < 8 * ([0x25] : List Byte).length := by decide

theorem witness_LfsrHoldsTheLastScrambledBits :
    (∃ t Y, exec (.scr 1 2 3 [4, 5, 6]) State.reset = .next t ∧ t.responses = State.reset.responses ++ [0x00 :: Y]) ∧
    (∃ t, exec (.dsc 1 2 3 [4, 5, 6]) State.reset = .next t) ∧ ([4, 5, 6] : List Byte) = [] ++ [4, 5, 6] :=
  ⟨⟨_, _, rfl, rfl⟩, ⟨_, rfl⟩, rfl⟩

theorem witness_TransformIsCausal :
    ([0x00, 0x00] : List Byte).length = ([0x00, 0x7F] : List Byte).length ∧ 8 < 8 * ([0x00, 0x00] : List Byte).length ∧
    ∀ u ≤ 8, bitAt [0x00, 0x00] u = bitAt [0x00, 0x7F] u := by decide

theorem witness_DescramblerSynchronizesItself :
    3 ≤ ([1, 2, 3] : List Byte).length ∧ ([0x01] : List Byte).length = ([0x00] : List Byte).length ∧
    ∀ u < 8 * ([0x00] : List Byte).length, bitAt [0x01] u = Bool.xor (bitAt [0x00] u) (decide (u = 7)) := by decide

theorem witness_WellFormednessIsTested :
    WFAt (regRead []) 0 ∧ WFAt (regRead (regP3 20)) 20 :=
  ⟨imageWF_iff_at.mp (by decide), by
    have h : countOf (regP3 20) = 20 := by decide
    exact h ▸ imageWF_iff_at.mp wf_full⟩

theorem witness_CountIsTheLeastEmptySlot : (countOf regA).val = 1 ∧ (countOf (regP3 20)).val = 20 ∧ WF (regRead regA) :=
  ⟨by decide, by decide, wf_of_imageWF wf_regA⟩

theorem witness_FindIsTheLeastMatch :
    findId regAB [0x41, 0x42, 0x43, 0x44] = some 1 ∧ findId regAB [0x41, 0x42, 0x43, 0x45] = none := by decide

theorem witness_RwrFollowsItsRule :
    (WF (regRead regA) ∧ ([0x31, 0x32, 0x33] : List Byte).length ≠ 4 ∧ findId regA [0x31, 0x32, 0x33, 0x34] ≠ none) ∧
    (WF (regRead (regP3 20)) ∧ findId (regP3 20) [0x24, 0xAA, 0xBB, 0xCC] = none ∧ (countOf (regP3 20)).val = 20) ∧
    (WF (regRead (regP3 19)) ∧ findId (regP3 19) [0x24, 0xAA, 0xBB, 0xCC] = none ∧ (countOf (regP3 19)).val < 20) ∧
    (WF (regRead []) ∧ findId [] [0xFE, 0, 0, 0] = none ∧ (countOf []).val < 20 ∧
      ([0xFE, 0, 0, 0] : List Byte).head? ≠ some 0xFF) :=
  ⟨⟨wf_of_imageWF wf_regA, by decide, by decide⟩, ⟨wf_of_imageWF wf_full, by decide, by decide⟩,
    ⟨wf_of_imageWF wf_nineteen, by decide, by decide⟩, ⟨wf_of_imageWF (by decide), by decide, by decide, by decide⟩⟩

theorem witness_TerminatorIdentifiers :
    (WF (regRead (regP3 19)) ∧ (countOf (regP3 19)).val < 20) ∧ WF (regRead (regP3 20)) ∧ (countOf (regP3 20)).val = 20 :=
  ⟨⟨wf_of_imageWF wf_nineteen, by decide⟩, wf_of_imageWF wf_full, by decide⟩

theorem witness_RerFollowsItsRule :
    WF (regRead (regP3 20)) ∧ ([] : List Byte).length ≠ 4 ∧ findId (regP3 20) [0x24, 0xAA, 0xBB, 0xCC] = none ∧
    findId (regP3 20) [0x10, 0xAA, 0xBB, 0xCC] = some 0 ∧ findId (regP3 20) [0x23, 0xAA, 0xBB, 0xCC] = some 19 :=
  ⟨wf_of_imageWF wf_full, by decide, by decide, by decide, by decide⟩

theorem witness_RpoFollowsItsRule :
    WF (regRead (regP3 20)) ∧ ([1, 2, 3, 4, 5] : List Byte).length ≠ 4 ∧
    findId (regP3 20) [0x24, 0xAA, 0xBB, 0xCC] = none ∧ findId (regP3 20) [0x23, 0xAA, 0xBB, 0xCC] = some 19 :=
  ⟨wf_of_imageWF wf_full, by decide, by decide, by decide⟩

theorem witness_RctFollowsItsRule : WF (regRead []) ∧ WF (regRead (regP3 20)) :=
  ⟨wf_of_imageWF (by decide), wf_of_imageWF wf_full⟩

theorem witness_RrdFollowsItsRule : 19 < (0x14 : Byte).toNat ∧ (19 : SlotIdx).val = (0x13 : Byte).toNat := by decide

theorem witness_IllFormedImageIsRefused : ¬WF (regRead (stateOf regIll []).reg) := not_wf_regIll

theorem witness_DurableCopyFollowsEveryMutation :
    (∃ t, runCommand [0x10, 0x04, 0x31, 0x32, 0x33, 0x34] (stateOf [] []) = .next t ∧
      t.responses = (stateOf [] []).responses ++ [[0x00]]) ∧
    (∃ t, runCommand [0x14, 0x00] State.reset = .next t) ∧ Durable (stateOf regA [] |>.setNv (nvImage (regRead regA))) :=
  ⟨rwr_answers_ok [] [] 0x31 0x32 0x33 0x34 (by decide) (by decide) (by decide) (by decide), ⟨_, rfl⟩,
    fun a => by simp [stateOf]⟩

theorem witness_WellFormednessIsPreserved :
    (WF (regRead (stateOf regA [.reset true 0]).reg) ∧ (∀ e ∈ (stateOf regA [.reset true 0]).events, e.keepsOrClears = true) ∧
      ∃ t, step (stateOf regA [.reset true 0]) = .next t) ∧
    ∃ t, step ((stateOf regA [.reset false 0]).setNv (nvImage (regRead regIll))) = .next t ∧ ¬WF (regRead t.reg) := by
  refine ⟨⟨wf_of_imageWF wf_regA, by simp [stateOf, Event.keepsOrClears], ⟨_, rfl⟩⟩,
    runReset false 0 ((stateOf regA []).setNv (nvImage (regRead regIll))), rfl, ?_⟩
  have h : regRead (runReset false 0 ((stateOf regA []).setNv (nvImage (regRead regIll)))).reg = regRead regIll :=
    funext fun a => by simp
  rw [h]
  exact not_wf_regIll

theorem noDup_regAB : NoDup regAB := by
  intro j k hjk hk
  have hc : (countOf regAB).val = 2 := by decide
  obtain rfl : k = 1 := Fin.ext (by simp; omega)
  obtain rfl : j = 0 := Fin.ext (by simp; simp at hjk; omega)
  decide

theorem witness_NoDuplicatesArePreserved :
    NoDup (stateOf regAB [.command [0x14, 0x00]]).reg ∧ (∃ t, step (stateOf regAB [.command [0x14, 0x00]]) = .next t) ∧
    (∀ e rest, (stateOf regAB [.command [0x14, 0x00]]).events = e :: rest → e.keepsOrClears = true) ∧
    ∃ t, step (stateOf regAB [.reset true 0]) = .next t := by
  refine ⟨noDup_regAB, ⟨_, rfl⟩, fun e rest h => ?_, ⟨_, rfl⟩⟩
  obtain ⟨rfl, -⟩ := List.cons.inj h
  rfl

theorem witness_RegistryRefinesAList :
    (∃ t, exec (.rwr [0x51, 0x52, 0x53, 0x54]) (stateOf regAB []) = .next t ∧
      t.responses = (stateOf regAB []).responses ++ [[0x00]]) ∧
    (∃ t, exec (.rer [0x31, 0x32, 0x33, 0x34]) (stateOf regAB []) = .next t ∧
      t.responses = (stateOf regAB []).responses ++ [[0x00]]) ∧ mutates (.rrd 0) = false :=
  ⟨rwr_answers_ok regAB [] 0x51 0x52 0x53 0x54 wf_regAB (by decide) (by decide) (by decide),
    rer_answers_ok regAB [] [0x31, 0x32, 0x33, 0x34] 0 wf_regAB rfl (by decide), rfl⟩

theorem witness_TwentyWritesFillTheRegistry :
    ∃ ids : List (List Byte), (∀ a, regRead [] a = 0xFF) ∧ ids.length = 20 ∧ ids.Nodup ∧
      (∀ id ∈ ids, id.length = 4 ∧ id.head? ≠ some 0xFF) ∧ ([0x24, 0xAA, 0xBB, 0xCC] : List Byte) ∉ ids :=
  ⟨(List.range 20).map fun k => [BitVec.ofNat 8 (0x10 + k), 0xAA, 0xBB, 0xCC], fun _ => rfl, by decide, by decide,
    by decide, by decide⟩

theorem witness_ReissuedMutationsChangeNothing :
    (∃ t, exec (.rwr [0x51, 0x52, 0x53, 0x54]) (stateOf regAB []) = .next t ∧
      t.responses = (stateOf regAB []).responses ++ [[0x00]]) ∧
    NoDup (stateOf regAB []).reg ∧ ∃ t, exec (.rer [0x31, 0x32, 0x33, 0x34]) (stateOf regAB []) = .next t ∧
      t.responses = (stateOf regAB []).responses ++ [[0x00]] :=
  ⟨witness_RegistryRefinesAList.1, noDup_regAB, witness_RegistryRefinesAList.2.1⟩

theorem witness_IndicesMoveOnErase :
    (∃ t, exec (.rer [0x41, 0x42, 0x43, 0x44]) (stateOf regABC []) = .next t ∧
      t.responses = (stateOf regABC []).responses ++ [[0x00]]) ∧
    findId regABC [0x41, 0x42, 0x43, 0x44] = some 1 ∧ findId regABC [0x51, 0x52, 0x53, 0x54] = some 2 ∧
    findId regABC [0x31, 0x32, 0x33, 0x34] = some 0 :=
  ⟨rer_answers_ok regABC [] [0x41, 0x42, 0x43, 0x44] 1 wf_regABC rfl (by decide), by decide, by decide, by decide⟩

/-- An entry that stays under RRD and under RWR of an identifier that is present, and an RWR that appends one. -/
theorem witness_TypeByteIsWrittenOnce :
    (∃ t, exec (.rrd 0) (stateOf regA []) = .next t ∧
      (⟨0x31, 0x32, 0x33, 0x34, 0x55⟩ : Entry) ∈ validEntries t.reg) ∧
    (∃ t, exec (.rwr [0x31, 0x32, 0x33, 0x34]) (stateOf regA []) = .next t ∧
      (⟨0x31, 0x32, 0x33, 0x34, 0x55⟩ : Entry) ∈ validEntries t.reg) ∧
    ∃ t, exec (.rwr [0x41, 0x42, 0x43, 0x44]) (stateOf regA []) = .next t ∧
      t.responses = (stateOf regA []).responses ++ [[0x00]] :=
  ⟨⟨(stateOf regA []).addResponse [0x00, 0x31, 0x32, 0x33, 0x34, 0x55], rfl, by decide⟩,
    ⟨(stateOf regA []).addResponse [0x01], rwr_present regA [] [0x31, 0x32, 0x33, 0x34] 0 wf_regA rfl (by decide),
      by decide⟩,
    rwr_answers_ok regA [] 0x41 0x42 0x43 0x44 wf_regA (by decide) (by decide) (by decide)⟩

theorem witness_CanonicalFormIsPreserved :
    Canonical (stateOf regAB [.command [0x14, 0x00]]) ∧ ∃ t, step (stateOf regAB [.command [0x14, 0x00]]) = .next t :=
  ⟨⟨by decide, by decide⟩, ⟨_, rfl⟩⟩

theorem witness_ResetRebuildsTheWorkingImage :
    (stateOf regA [.reset true 7]).events = .reset true 7 :: [] ∧
    (stateOf regA [.reset false 7]).events = .reset false 7 :: [] := ⟨rfl, rfl⟩

/-- RWR of an identifier that is present, which answers another status than OK (B8, last row). -/
theorem witness_ResetInsideACommand :
    (stateOf regA [.cut [0x13] .beforePersist true 0]).events = .cut [0x13] .beforePersist true 0 :: [] ∧
    (∃ st, decode [0x10] = .error st) ∧ (∃ i, decode [0x13] = .ok i ∧ mutates i = false) ∧
    ∃ i t r, decode [0x10, 0x04, 0x31, 0x32, 0x33, 0x34] = .ok i ∧ exec i (stateOf regA []) = .next t ∧
      t.responses = (stateOf regA []).responses ++ [r] ∧ r ≠ [0x00] :=
  ⟨rfl, ⟨_, rfl⟩, ⟨_, rfl, rfl⟩, _, (stateOf regA []).addResponse [0x01], [0x01], rfl,
    rwr_present regA [] [0x31, 0x32, 0x33, 0x34] 0 wf_regA rfl (by decide), rfl, by decide⟩

theorem witness_InterruptedPersistLeavesAnyImage :
    (stateOf regA [.cut [0x10, 0x04, 0x41, 0x42, 0x43, 0x44] (.insidePersist (Vector.replicate 100 0)) false 0]).events =
      .cut [0x10, 0x04, 0x41, 0x42, 0x43, 0x44] (.insidePersist (Vector.replicate 100 0)) false 0 :: [] ∧
    decode [0x10, 0x04, 0x41, 0x42, 0x43, 0x44] = .ok (.rwr [0x41, 0x42, 0x43, 0x44]) ∧
    mutates (.rwr [0x41, 0x42, 0x43, 0x44]) = true ∧
    ∃ u, exec (.rwr [0x41, 0x42, 0x43, 0x44]) (stateOf regA []) = .next u ∧
      u.responses = (stateOf regA []).responses ++ [[0x00]] :=
  ⟨rfl, rfl, rfl, rwr_answers_ok regA [] 0x41 0x42 0x43 0x44 wf_regA (by decide) (by decide) (by decide)⟩

theorem witness_ResetAfterPersistKeepsTheNewImage :
    (stateOf regA [.cut [0x11, 0x04, 0x31, 0x32, 0x33, 0x34] .afterPersist false 0]).events =
      .cut [0x11, 0x04, 0x31, 0x32, 0x33, 0x34] .afterPersist false 0 :: [] ∧
    decode [0x11, 0x04, 0x31, 0x32, 0x33, 0x34] = .ok (.rer [0x31, 0x32, 0x33, 0x34]) ∧
    mutates (.rer [0x31, 0x32, 0x33, 0x34]) = true ∧
    ∃ u, exec (.rer [0x31, 0x32, 0x33, 0x34]) (stateOf regA []) = .next u ∧
      u.responses = (stateOf regA []).responses ++ [[0x00]] :=
  ⟨rfl, rfl, rfl, rer_answers_ok regA [] [0x31, 0x32, 0x33, 0x34] 0 wf_regA rfl (by decide)⟩

theorem witness_RegistrySurvivesResetUnderThePremise :
    let s := (stateOf regA [.reset false 0]).setNv (nvImage (regRead regA))
    s.events = .reset false 0 :: [] ∧ Durable s ∧ assumeNvFlag s true (.reset false 0) ∧ (∃ t, step s = .next t) ∧
      nvFlagAfter s true (.reset false 0) = true :=
  ⟨rfl, fun a => by simp [stateOf], rfl, ⟨_, rfl⟩, rfl⟩

end Sys2Proof.Tests
end

/-! ## The encoding family (30_encoding.md): decoding check by check, and one response per command -/

namespace Sys2Proof

/-! ### What each format's decoder answers, check by check (R45) -/

section Formats

variable {mk : Byte → Byte → Byte → List Byte → Instr} {mkI : List Byte → Instr} {mkX : Byte → Instr}
  {a b c n idlen : Byte} {data id rest : List Byte}

theorem decodeS_of_length_lt (h : rest.length < 4) : decodeS mk rest = .error .malformed := by
  match rest with
  | [] | [_] | [_, _] | [_, _, _] => rfl
  | _ :: _ :: _ :: _ :: _ =>
    simp only [List.length_cons] at h
    omega

theorem decodeS_of_length_ne (h : data.length ≠ n.toNat) :
    decodeS mk (a :: b :: c :: n :: data) = .error .malformed := if_pos h

theorem decodeS_of_gt_maxLen (h : data.length = n.toNat) (hn : 20 < n.toNat) :
    decodeS mk (a :: b :: c :: n :: data) = .error .badLength := by
  simp [decodeS, h, hn]

theorem decodeS_of_le_maxLen (h : data.length = n.toNat) (hn : n.toNat ≤ 20) :
    decodeS mk (a :: b :: c :: n :: data) = .ok (mk a b c data) := by
  simp [decodeS, h, hn]

theorem decodeI_of_length_ne (h : id.length ≠ idlen.toNat) :
    decodeI mkI (idlen :: id) = .error .malformed := if_pos h

theorem decodeI_of_length_eq (h : id.length = idlen.toNat) : decodeI mkI (idlen :: id) = .ok (mkI id) :=
  if_neg (not_not_intro h)

theorem decodeX_of_length_ne_one (h : rest.length ≠ 1) : decodeX mkX rest = .error .malformed := by
  match rest with
  | [] | _ :: _ :: _ => rfl
  | [_] => simp at h

end Formats

/-! ### Which format an opcode selects (R44) -/

theorem decode_formatS {op : Byte} (h : op ∈ ([0x01, 0x02] : List Byte)) (rest : List Byte) :
    ∃ mk, decode (op :: rest) = decodeS mk rest := by
  obtain rfl | rfl : op = 0x01 ∨ op = 0x02 := by simpa using h
  · exact ⟨.scr, rfl⟩
  · exact ⟨.dsc, rfl⟩

theorem decode_formatI {op : Byte} (h : op ∈ ([0x10, 0x11, 0x12] : List Byte)) (rest : List Byte) :
    ∃ mk, decode (op :: rest) = decodeI mk rest := by
  obtain rfl | rfl | rfl : op = 0x10 ∨ op = 0x11 ∨ op = 0x12 := by simpa using h
  · exact ⟨.rwr, rfl⟩
  · exact ⟨.rer, rfl⟩
  · exact ⟨.rpo, rfl⟩

theorem decode_illegalOpcode {op : Byte} (h : op ∉ ([0x01, 0x02, 0x10, 0x11, 0x12, 0x13, 0x14] : List Byte))
    (rest : List Byte) : decode (op :: rest) = .error .illegalOpcode := by
  simp only [List.mem_cons, List.not_mem_nil, or_false, not_or] at h
  obtain ⟨h₁, h₂, h₃, h₄, h₅, h₆, h₇⟩ := h
  rw [decode_cons, if_neg h₁, if_neg h₂, if_neg h₃, if_neg h₄, if_neg h₅, if_neg h₆, if_neg h₇]

/-- Settles O3: the opcode selects the format's decoder, whose checks then stand one lemma each. -/
theorem decodeFollowsItsChecks : Obligations.DecodeFollowsItsChecks := by
  refine ⟨rfl, fun op rest h => decode_illegalOpcode h rest, fun op rest hop h => ?shortS,
    fun op a b c n data hop h => ?lengthS, fun op a b c n data hop h hn => ?boundS,
    fun a b c n data h hn => ⟨decodeS_of_le_maxLen h hn, decodeS_of_le_maxLen h hn⟩,
    fun op hop => ?shortI, fun op idlen id hop h => ?lengthI,
    fun idlen id h => ⟨decodeI_of_length_eq h, decodeI_of_length_eq h, decodeI_of_length_eq h⟩,
    rfl, fun _ _ => rfl, fun _ => rfl, fun rest h => decodeX_of_length_ne_one h⟩
  case shortS =>
    obtain ⟨mk, e⟩ := decode_formatS hop rest
    rw [e, decodeS_of_length_lt h]
  case lengthS =>
    obtain ⟨mk, e⟩ := decode_formatS hop (a :: b :: c :: n :: data)
    rw [e, decodeS_of_length_ne h]
  case boundS =>
    obtain ⟨mk, e⟩ := decode_formatS hop (a :: b :: c :: n :: data)
    rw [e, decodeS_of_gt_maxLen h hn]
  case shortI =>
    obtain ⟨mk, e⟩ := decode_formatI hop []
    rw [e, decodeI]
  case lengthI =>
    obtain ⟨mk, e⟩ := decode_formatI hop (idlen :: id)
    rw [e, decodeI_of_length_ne h]

namespace Machine

/-! ### One response per command (R47) -/

theorem finishPlan_appends_one_response {p : Plan} {s t : State} (h : finishPlan p s = .next t) :
    ∃ st payload, t.responses = s.responses ++ [statusCode st :: payload] := by
  obtain ⟨st, -, rfl⟩ | ⟨m, -, rfl⟩ := finishPlan_next h
  · exact ⟨st, [], rfl⟩
  · exact ⟨.ok, [], rfl⟩

theorem exec_appends_one_response {i : Instr} {s t : State} (h : exec i s = .next t) :
    ∃ st payload, t.responses = s.responses ++ [statusCode st :: payload] := by
  cases i with
  | scr a b c data | dsc a b c data =>
    obtain rfl := Host.Outcome.next.inj h
    exact ⟨.ok, _, rfl⟩
  | rwr id | rer id => exact finishPlan_appends_one_response h
  | rpo id =>
    change execRpo id s = .next t at h
    obtain ⟨-, e⟩ | ⟨-, -, e⟩ | ⟨-, -, p, -, e⟩ := execRpo_cases id s <;> rw [e] at h <;> cases h
    · exact ⟨.notFound, [], rfl⟩
    · exact ⟨.ok, _, rfl⟩
  | rct =>
    change execRct s = .next t at h
    obtain ⟨-, e⟩ | ⟨-, e⟩ := execRct_cases s <;> rw [e] at h <;> cases h
    exact ⟨.ok, _, rfl⟩
  | rrd index =>
    change execRrd index s = .next t at h
    obtain ⟨-, e⟩ | ⟨_, e⟩ := execRrd_cases index s <;> rw [e] at h <;> cases h
    · exact ⟨.badIndex, [], rfl⟩
    · exact ⟨.ok, _, rfl⟩

/-- Settles O9, by the five things a step can do: a rejected and an executed command append their one response, and an
idle step, a reset and a cut leave the responses as they are. -/
theorem oneResponsePerCommand : Obligations.OneResponsePerCommand := by
  intro s t h
  obtain ⟨hs, rfl⟩ | ⟨C, rest, st, hs, -, rfl⟩ | ⟨C, rest, i, hs, -, hx⟩ | ⟨cold, v, rest, hs, rfl⟩ |
    ⟨C, point, cold, v, rest, m, hs, -, rfl⟩ := step_next h
  · exact ⟨by simp [hs], fun _ => rfl⟩
  · exact ⟨fun _ _ _ => ⟨st, [], rfl⟩, fun hn => absurd hs (hn C rest)⟩
  · have hr := exec_appends_one_response hx
    exact ⟨fun _ _ _ => hr, fun hn => absurd hs (hn C rest)⟩
  · exact ⟨by simp [hs], fun _ => rfl⟩
  · exact ⟨by simp [hs], fun _ => rfl⟩

end Machine

end Sys2Proof

/-! ## The scrambler family (40_scrambler.md): the transform as a recurrence over the scrambled side -/

namespace Sys2Proof.Machine

/-! ### The seed (R58) -/

/-- Settles O15: at each position the two bytes that are not loaded there read as zeros, the one shifted past it below
its least bit and the one short of it above its highest. -/
theorem seedLoadsLowByteFirst : Obligations.SeedLoadsLowByteFirst := by
  intro a b c j hj
  have hj24 : j < 24 := by omega
  refine ⟨?seed0, ?seed1, ?seed2⟩ <;>
    simp only [lfsrInit, BitVec.getLsbD_or, BitVec.getLsbD_shiftLeft, BitVec.getLsbD_setWidth]
  case seed0 => simp [hj24, show j < 16 by omega, hj]
  case seed1 => simp [hj24, show 8 + j < 24 by omega, show 8 + j < 16 by omega]
  case seed2 => simp [hj24, show 16 + j < 24 by omega, BitVec.getLsbD_of_ge b (16 + j - 8) (by omega),
    BitVec.getLsbD_of_ge a (16 + j) (by omega)]

/-! ### One bit (R59) -/

/-- Settles O16, by what one bit does to the output and to the register. -/
theorem bitStepReadsTapsThenShifts : Obligations.BitStepReadsTapsThenShifts := by
  intro mode s b
  have lsb : (bitStep mode s b).1.getLsbD 0 = insertedBit mode b (bitStep mode s b).2 :=
    bitStep_reg mode s b 0 (by decide)
  refine ⟨bitStep_out mode s b, fun k hk => ?shift, fun hm => ?scramble, fun hm => ?descramble⟩
  case shift =>
    exact (bitStep_reg mode s b (k + 1) (by omega)).trans (if_neg k.succ_ne_zero)
  case scramble => rw [lsb, hm, insertedBit]
  case descramble => rw [lsb, hm, insertedBit]

/-! ### Bits of a message (R30) -/

@[simp] theorem bitAt_nil (t : Nat) : bitAt [] t = false := by simp [bitAt]

theorem bitAt_cons_of_lt {t : Nat} (h : t < 8) (B : Byte) (l : List Byte) :
    bitAt (B :: l) t = B.getLsbD (7 - t) := by
  simp [bitAt, Nat.div_eq_of_lt h, Nat.mod_eq_of_lt h]

@[simp] theorem bitAt_cons_add_eight (B : Byte) (l : List Byte) (t : Nat) :
    bitAt (B :: l) (t + 8) = bitAt l t := by simp [bitAt]

theorem bitAt_append_add (front l : List Byte) (t : Nat) :
    bitAt (front ++ l) (8 * front.length + t) = bitAt l t := by
  induction front with
  | nil => simp
  | cons B front ih =>
    rw [List.length_cons, show 8 * (front.length + 1) + t = 8 * front.length + t + 8 by omega, List.cons_append,
      bitAt_cons_add_eight, ih]

/-- The register that three bytes load reads them first bit highest (R58, R30). -/
theorem getLsbD_lfsrInit {k : Nat} (hk : k < 24) (a b c : Byte) :
    (lfsrInit c b a).getLsbD k = bitAt [a, b, c] (23 - k) := by
  obtain h | ⟨j, hj, rfl⟩ | ⟨j, hj, rfl⟩ :
      k < 8 ∨ (∃ j < 8, k = 8 + j) ∨ ∃ j < 8, k = 16 + j := by
    by_cases h8 : k < 8
    · exact .inl h8
    · by_cases h16 : k < 16
      · exact .inr (.inl ⟨k - 8, by omega, by omega⟩)
      · exact .inr (.inr ⟨k - 16, by omega, by omega⟩)
  · rw [(seedLoadsLowByteFirst c b a k h).1, show 23 - k = 7 - k + 8 + 8 by omega, bitAt_cons_add_eight,
      bitAt_cons_add_eight, bitAt_cons_of_lt (by omega), show 7 - (7 - k) = k by omega]
  · rw [(seedLoadsLowByteFirst c b a j hj).2.1, show 23 - (8 + j) = 7 - j + 8 by omega, bitAt_cons_add_eight,
      bitAt_cons_of_lt (by omega), show 7 - (7 - j) = j by omega]
  · rw [(seedLoadsLowByteFirst c b a j hj).2.2, show 23 - (16 + j) = 7 - j by omega,
      bitAt_cons_of_lt (by omega), show 7 - (7 - j) = j by omega]

/-! ### Earlier bits of the scrambled side (R67) -/

section PastBit

variable {seed : Lfsr} {c : List Byte} {t d : Nat}

theorem pastBit_of_le (h : d ≤ t) : pastBit seed c t d = bitAt c (t - d) := if_pos h

theorem pastBit_of_lt (h : t < d) : pastBit seed c t d = seed.getLsbD (d - t - 1) := if_neg (by omega)

/-- A past bit reads only bits before the current one. -/
theorem pastBit_congr {c' : List Byte} (h : ∀ u < t, bitAt c u = bitAt c' u) (hd : 0 < d) :
    pastBit seed c t d = pastBit seed c' t d := by
  by_cases hdt : d ≤ t
  · rw [pastBit_of_le hdt, pastBit_of_le hdt, h (t - d) (by omega)]
  · rw [pastBit_of_lt (by omega), pastBit_of_lt (by omega)]

/-- Two seeds differ in a past bit exactly where their difference stands at a negative index. -/
theorem pastBit_of_seeds (seed seed' : Lfsr) (c : List Byte) (t d : Nat) :
    pastBit seed' c t d = Bool.xor (pastBit seed c t d) (pastBit (seed ^^^ seed') [] t d) := by
  by_cases hdt : d ≤ t
  · simp [pastBit_of_le hdt]
  · simp [pastBit_of_lt (Nat.lt_of_not_le hdt)]

/-- One flipped bit `t` of the message flips the past bit at distance `d` of position `t + d` and no other. -/
theorem pastBit_of_flipped {c' : List Byte} {u : Nat}
    (h : ∀ v ≤ u, bitAt c' v = Bool.xor (bitAt c v) (decide (v = t))) :
    pastBit seed c' u d = Bool.xor (pastBit seed c u d) (decide (u = t + d)) := by
  by_cases hdu : d ≤ u
  · rw [pastBit_of_le hdu, pastBit_of_le hdu, h (u - d) (by omega)]
    simp only [show u - d = t ↔ u = t + d by omega]
  · rw [pastBit_of_lt (by omega), pastBit_of_lt (by omega), decide_eq_false (by omega), Bool.xor_false]

/-- Going past a scrambled-side byte: the register after it holds what the register before it and the byte held. -/
theorem pastBit_cons_add_eight {seed' : Lfsr} {B : Byte} (hd : 0 < d) (hd' : d ≤ 24)
    (h : ∀ k < 24, seed'.getLsbD k = if k < 8 then B.getLsbD k else seed.getLsbD (k - 8)) :
    pastBit seed (B :: c) (t + 8) d = pastBit seed' c t d := by
  by_cases hdt : d ≤ t
  · rw [pastBit_of_le hdt, pastBit_of_le (by omega), show t + 8 - d = t - d + 8 by omega, bitAt_cons_add_eight]
  · rw [pastBit_of_lt (seed := seed') (by omega), h _ (by omega)]
    by_cases hk : d - t - 1 < 8
    · rw [if_pos hk, pastBit_of_le (by omega), bitAt_cons_of_lt (by omega),
        show 7 - (t + 8 - d) = d - t - 1 by omega]
    · rw [if_neg hk, pastBit_of_lt (by omega), show d - (t + 8) - 1 = d - t - 1 - 8 by omega]

end PastBit

/-! ### The transform as a recurrence (R67), and the register after it (R64) -/

/-- The scrambled side of a message (R64): the output of the scrambler, the input of the descrambler. -/
def sentBytes (mode : ScrMode) (input output : List Byte) : List Byte :=
  match mode with
  | .scramble => output
  | .descramble => input

@[simp] theorem sentBytes_scramble (input output : List Byte) : sentBytes .scramble input output = output := rfl

@[simp] theorem sentBytes_descramble (input output : List Byte) : sentBytes .descramble input output = input := rfl

theorem sentBytes_cons (mode : ScrMode) (B b : Byte) (input output : List Byte) :
    sentBytes mode (B :: input) (b :: output) = sentByte mode B b :: sentBytes mode input output := by
  cases mode <;> rfl

theorem bytesStep_cons (mode : ScrMode) (s : Lfsr) (B : Byte) (data : List Byte) :
    bytesStep mode s (B :: data) =
      ((bytesStep mode (byteStep mode s B).1 data).1,
        (byteStep mode s B).2 :: (bytesStep mode (byteStep mode s B).1 data).2) := rfl

/-- R64: position `k` of the register holds the scrambled-side bit `k + 1` places back. -/
theorem bytesStep_reg (mode : ScrMode) (s : Lfsr) (data : List Byte) {k : Nat} (hk : k < 24) :
    (bytesStep mode s data).1.getLsbD k =
      pastBit s (sentBytes mode data (bytesStep mode s data).2) (8 * data.length) (k + 1) := by
  induction data generalizing s with
  | nil => rw [pastBit_of_lt (by simp)]; simp [bytesStep]
  | cons B data ih =>
    rw [bytesStep_cons, sentBytes_cons, List.length_cons, Nat.mul_succ,
      pastBit_cons_add_eight (by omega) (by omega) (byteStep_reg mode s B)]
    exact ih _

/-- R67: an output bit is its input bit xor the scrambled-side bits 19 and 24 places back. -/
theorem bitAt_bytesStep (mode : ScrMode) (s : Lfsr) (data : List Byte) {t : Nat} (ht : t < 8 * data.length) :
    bitAt (bytesStep mode s data).2 t =
      Bool.xor (bitAt data t)
        (Bool.xor (pastBit s (sentBytes mode data (bytesStep mode s data).2) t 19)
          (pastBit s (sentBytes mode data (bytesStep mode s data).2) t 24)) := by
  induction data generalizing s t with
  | nil => simp at ht
  | cons B data ih =>
    by_cases h8 : t < 8
    · rw [bytesStep_cons, bitAt_cons_of_lt h8, bitAt_cons_of_lt h8, byteStep_out _ _ _ _ (by omega),
        pastBit_of_lt (by omega), pastBit_of_lt (by omega), show 11 + (7 - t) = 19 - t - 1 by omega,
        show 16 + (7 - t) = 24 - t - 1 by omega]
    · obtain ⟨u, rfl⟩ : ∃ u, t = u + 8 := ⟨t - 8, by omega⟩
      rw [List.length_cons] at ht
      rw [bytesStep_cons, sentBytes_cons, bitAt_cons_add_eight, bitAt_cons_add_eight,
        pastBit_cons_add_eight (by omega) (by omega) (byteStep_reg mode s B),
        pastBit_cons_add_eight (by omega) (by omega) (byteStep_reg mode s B)]
      exact ih _ (by omega)

theorem bytesStep_take (mode : ScrMode) (s : Lfsr) (X : List Byte) (k : Nat) :
    (bytesStep mode s (X.take k)).2 = (bytesStep mode s X).2.take k := by
  induction X generalizing s k with
  | nil => simp [bytesStep]
  | cons B X ih =>
    cases k with
    | zero => rfl
    | succ k => simp [bytesStep_cons, ih]

section Xform

variable (mode : ScrMode) (a b c : Byte) (data : List Byte)

@[simp] theorem xform_length : (xform mode a b c data).length = data.length := bytesStep_length ..

@[simp] theorem sentBytes_xform_length : (sentBytes mode data (xform mode a b c data)).length = data.length := by
  cases mode <;> simp

/-- R67 for SCR and DSC. -/
theorem bitAt_xform {t : Nat} (ht : t < 8 * data.length) :
    bitAt (xform mode a b c data) t =
      Bool.xor (bitAt data t)
        (Bool.xor (pastBit (lfsrInit a b c) (sentBytes mode data (xform mode a b c data)) t 19)
          (pastBit (lfsrInit a b c) (sentBytes mode data (xform mode a b c data)) t 24)) :=
  bitAt_bytesStep mode _ data ht

/-- R64 for SCR and DSC. -/
theorem getLsbD_xformLfsr {k : Nat} (hk : k < 24) :
    (xformLfsr mode a b c data).getLsbD k =
      pastBit (lfsrInit a b c) (sentBytes mode data (xform mode a b c data)) (8 * data.length) (k + 1) :=
  bytesStep_reg mode _ data hk

/-- R64: the last three scrambled-side bytes, the last one lowest. -/
theorem xformLfsr_of_last_three {front : List Byte} {x y z : Byte}
    (h : sentBytes mode data (xform mode a b c data) = front ++ [x, y, z]) :
    xformLfsr mode a b c data = lfsrInit z y x := by
  have hlen : data.length = front.length + 3 := by
    rw [← sentBytes_xform_length mode a b c data, h, List.length_append]
    rfl
  refine BitVec.eq_of_getLsbD_eq fun k hk => ?_
  rw [getLsbD_xformLfsr _ _ _ _ _ hk, h, pastBit_of_le (by omega), getLsbD_lfsrInit hk,
    show 8 * data.length - (k + 1) = 8 * front.length + (23 - k) by omega, bitAt_append_add]

theorem exec_scr (s : State) :
    exec (.scr a b c data) s =
      .next ((s.setLfsr (xformLfsr .scramble a b c data)).addResponse (0x00 :: xform .scramble a b c data)) :=
  runXform_next ..

theorem exec_dsc (s : State) :
    exec (.dsc a b c data) s =
      .next ((s.setLfsr (xformLfsr .descramble a b c data)).addResponse (0x00 :: xform .descramble a b c data)) :=
  runXform_next ..

end Xform

/-- R64 in both modes: SCR and DSC leave the same thing in the register, said of their scrambled sides. -/
theorem xformLfsr_holds_last_scrambled_bits (mode : ScrMode) (a b c : Byte) (data scrambled : List Byte)
    (h : sentBytes mode data (xform mode a b c data) = scrambled) :
    (data = [] → xformLfsr mode a b c data = lfsrInit a b c) ∧
    (∀ k < 24, (xformLfsr mode a b c data).getLsbD k = pastBit (lfsrInit a b c) scrambled (8 * data.length) (k + 1)) ∧
    (∀ (front : List Byte) (x y z : Byte), scrambled = front ++ [x, y, z] →
      xformLfsr mode a b c data = lfsrInit z y x) := by
  subst h
  refine ⟨fun h => ?_, fun k hk => getLsbD_xformLfsr mode a b c data hk,
    fun front x y z h => xformLfsr_of_last_three mode a b c data h⟩
  subst h
  rfl

/-- Settles O19: SCR's scrambled side is the response's payload, DSC's is its data. -/
theorem lfsrHoldsTheLastScrambledBits : Obligations.LfsrHoldsTheLastScrambledBits := by
  rintro a b c data s t scrambled (⟨he, hr⟩ | ⟨he, rfl⟩)
  · obtain rfl := Host.Outcome.next.inj (exec_scr a b c data s ▸ he)
    have hout : xform .scramble a b c data = scrambled := by simpa using hr
    exact xformLfsr_holds_last_scrambled_bits .scramble a b c data scrambled hout
  · obtain rfl := Host.Outcome.next.inj (exec_dsc a b c scrambled s ▸ he)
    exact xformLfsr_holds_last_scrambled_bits .descramble a b c scrambled scrambled rfl

/-! ### Inverses (R65) -/

/-- The mode that undoes a mode. -/
def ScrMode.inverse : ScrMode → ScrMode
  | .scramble => .descramble
  | .descramble => .scramble

/-- Both directions see the same scrambled-side byte. -/
theorem sentByte_inverse (mode : ScrMode) (input output : Byte) :
    sentByte mode.inverse output input = sentByte mode input output := by
  cases mode <;> rfl

/-- R65 for one byte: the inverse mode gives the byte back and leaves the register the mode itself leaves. -/
theorem byteStep_inverse (mode : ScrMode) (s : Lfsr) (B : Byte) :
    byteStep mode.inverse s (byteStep mode s B).2 = ((byteStep mode s B).1, B) := by
  have hout : (byteStep mode.inverse s (byteStep mode s B).2).2 = B := by
    refine BitVec.eq_of_getLsbD_eq fun j hj => ?_
    rw [byteStep_out _ _ _ _ hj, byteStep_out _ _ _ _ hj, Bool.xor_assoc, Bool.xor_self, Bool.xor_false]
  refine Prod.ext (BitVec.eq_of_getLsbD_eq fun k hk => ?_) hout
  rw [byteStep_reg _ _ _ _ hk, hout, sentByte_inverse, byteStep_reg _ _ _ _ hk]

theorem bytesStep_inverse (mode : ScrMode) (s : Lfsr) (X : List Byte) :
    bytesStep mode.inverse s (bytesStep mode s X).2 = ((bytesStep mode s X).1, X) := by
  induction X generalizing s with
  | nil => rfl
  | cons B X ih => simp only [bytesStep_cons, byteStep_inverse, ih]

theorem xform_inverse (mode : ScrMode) (a b c : Byte) (X : List Byte) :
    xform mode.inverse a b c (xform mode a b c X) = X :=
  congrArg Prod.snd (bytesStep_inverse mode (lfsrInit a b c) X)

/-- Settles O20: the inverse mode byte by byte; an impulse under the zero seed shows that the two differ and that
neither undoes itself. -/
theorem descramblerAndScramblerInvertEachOther : Obligations.DescramblerAndScramblerInvertEachOther := by
  refine ⟨fun a b c X s => ?_, fun a b c Y s => ?_, ⟨0, 0, 0, [0x80, 0, 0, 0, 0], by decide⟩,
    ⟨0, 0, 0, [0x80, 0, 0, 0, 0], by decide⟩, ⟨0, 0, 0, [0x80, 0, 0, 0, 0], by decide⟩⟩
  · refine ⟨_, _, _, exec_scr a b c X s, rfl, exec_dsc a b c _ _, ?_⟩
    have hX : xform .descramble a b c (xform .scramble a b c X) = X := xform_inverse .scramble a b c X
    rw [State.addResponse_responses, State.setLfsr_responses, hX]
  · refine ⟨_, _, _, exec_dsc a b c Y s, rfl, exec_scr a b c _ _, ?_⟩
    have hY : xform .scramble a b c (xform .descramble a b c Y) = Y := xform_inverse .descramble a b c Y
    rw [State.addResponse_responses, State.setLfsr_responses, hY]

/-! ### Causality (R66) -/

/-- An output bit depends on the input bits up to its own, by strong induction on the position: the past bits of the
recurrence are earlier bits of the input or of the output. -/
theorem bitAt_xform_congr (mode : ScrMode) (a b c : Byte) {X Y : List Byte} (hlen : X.length = Y.length) {t : Nat}
    (ht : t < 8 * X.length) (h : ∀ u ≤ t, bitAt X u = bitAt Y u) :
    bitAt (xform mode a b c X) t = bitAt (xform mode a b c Y) t := by
  induction t using Nat.strong_induction_on with
  | _ t ih =>
    have sent : ∀ u < t, bitAt (sentBytes mode X (xform mode a b c X)) u =
        bitAt (sentBytes mode Y (xform mode a b c Y)) u := by
      intro u hu
      cases mode with
      | scramble => exact ih u hu (by omega) fun v hv => h v (by omega)
      | descramble => exact h u (by omega)
    rw [bitAt_xform _ _ _ _ _ ht, bitAt_xform _ _ _ _ _ (hlen ▸ ht), h t le_rfl, pastBit_congr sent (by omega),
      pastBit_congr sent (by omega)]

/-- Settles O21: the length, the loop on a part of the list, and the agreement of the past bits. -/
theorem transformIsCausal : Obligations.TransformIsCausal := fun mode a b c =>
  ⟨fun X => xform_length mode a b c X, fun X k => bytesStep_take mode _ X k,
    fun _ _ _ hlen ht h => bitAt_xform_congr mode a b c hlen ht h⟩

/-! ### Self-synchronization of the descrambler (R68) -/

section Descrambler

variable (a b c a' b' c' : Byte)

/-- After three bytes the register holds received bits only. -/
theorem xformLfsr_descramble_of_three_le {Y : List Byte} (h : 3 ≤ Y.length) :
    xformLfsr .descramble a b c Y = xformLfsr .descramble a' b' c' Y := by
  refine BitVec.eq_of_getLsbD_eq fun k hk => ?_
  rw [getLsbD_xformLfsr _ _ _ _ _ hk, getLsbD_xformLfsr _ _ _ _ _ hk, sentBytes_descramble, sentBytes_descramble,
    pastBit_of_le (by omega), pastBit_of_le (by omega)]

theorem xform_append (mode : ScrMode) (X Y : List Byte) :
    xform mode a b c (X ++ Y) = xform mode a b c X ++ (bytesStep mode (xformLfsr mode a b c X) Y).2 :=
  congrArg Prod.snd (bytesStep_append mode (lfsrInit a b c) X Y)

/-- Byte 3 and those after it come from the register after three bytes, in which the seed is no more. -/
theorem xform_descramble_getElem?_of_three_le (Y : List Byte) {i : Nat} (hi : 3 ≤ i) :
    (xform .descramble a b c Y)[i]? = (xform .descramble a' b' c' Y)[i]? := by
  by_cases hY : Y.length ≤ i
  · rw [List.getElem?_eq_none (by simpa using hY), List.getElem?_eq_none (by simpa using hY)]
  · have hlen : (Y.take 3).length = 3 := List.length_take_of_le (by omega)
    rw [← List.take_append_drop 3 Y, xform_append, xform_append,
      xformLfsr_descramble_of_three_le a b c a' b' c' (by omega),
      List.getElem?_append_right (by simp only [xform_length]; omega),
      List.getElem?_append_right (by simp only [xform_length]; omega), xform_length, xform_length]

/-- A wrong seed adds the taps' reading of the difference of the seeds. -/
theorem bitAt_xform_descramble_of_seeds {Y : List Byte} {t : Nat} (ht : t < 8 * Y.length) :
    bitAt (xform .descramble a' b' c' Y) t = Bool.xor (bitAt (xform .descramble a b c Y) t)
      (Bool.xor (pastBit (lfsrInit a b c ^^^ lfsrInit a' b' c') [] t 19)
        (pastBit (lfsrInit a b c ^^^ lfsrInit a' b' c') [] t 24)) := by
  rw [bitAt_xform _ _ _ _ _ ht, bitAt_xform _ _ _ _ _ ht, sentBytes_descramble, sentBytes_descramble,
    pastBit_of_seeds (lfsrInit a b c) (lfsrInit a' b' c') Y t 19,
    pastBit_of_seeds (lfsrInit a b c) (lfsrInit a' b' c') Y t 24]
  simp only [Bool.xor_assoc, Bool.xor_left_comm]

/-- Three different positions: a position is hit by at most one of the three flips. -/
theorem xor_decide_flipped_positions (u t : Nat) :
    Bool.xor (decide (u = t)) (Bool.xor (decide (u = t + 19)) (decide (u = t + 24))) =
      decide (u = t ∨ u = t + 19 ∨ u = t + 24) := by
  by_cases h₁ : u = t
  · simp [h₁]
  · by_cases h₂ : u = t + 19
    · simp [h₂]
    · simp [h₁, h₂]

/-- One flipped received bit flips itself and the two bits whose taps read it. -/
theorem bitAt_xform_descramble_of_flipped {Y Y' : List Byte} {t u : Nat} (hlen : Y'.length = Y.length)
    (h : ∀ v < 8 * Y.length, bitAt Y' v = Bool.xor (bitAt Y v) (decide (v = t))) (hu : u < 8 * Y.length) :
    bitAt (xform .descramble a b c Y') u =
      Bool.xor (bitAt (xform .descramble a b c Y) u) (decide (u = t ∨ u = t + 19 ∨ u = t + 24)) := by
  have h' : ∀ v ≤ u, bitAt Y' v = Bool.xor (bitAt Y v) (decide (v = t)) := fun v hv => h v (by omega)
  rw [bitAt_xform _ _ _ _ _ (hlen ▸ hu), bitAt_xform _ _ _ _ _ hu, sentBytes_descramble, sentBytes_descramble,
    h u hu, pastBit_of_flipped h', pastBit_of_flipped h', ← xor_decide_flipped_positions]
  simp only [Bool.xor_assoc, Bool.xor_left_comm, Bool.xor_comm]

end Descrambler

/-- Settles O22: the register, the bytes from 3 on, a wrong seed, and one flipped bit. -/
theorem descramblerSynchronizesItself : Obligations.DescramblerSynchronizesItself :=
  ⟨fun a b c a' b' c' _ h => xformLfsr_descramble_of_three_le a b c a' b' c' h,
    fun a b c a' b' c' Y _ hi => xform_descramble_getElem?_of_three_le a b c a' b' c' Y hi,
    fun a b c a' b' c' _ _ ht => bitAt_xform_descramble_of_seeds a b c a' b' c' ht,
    fun a b c _ _ _ hlen _ h _ hu => bitAt_xform_descramble_of_flipped a b c hlen h hu⟩

end Sys2Proof.Machine

/-! ## The registry family (41_registry.md): well-formed images, the lookup, and each command's rule -/

namespace Sys2Proof.Machine

/-! ### Well-formed images (R17) -/

theorem blankEntry_byte (o : SlotOff) : blankEntry.byte o = Config.terminator := by
  fin_cases o <;> rfl

/-- The `c` of a well-formed image is its count, and the image passes the test. -/
theorem imageWF_and_countOf_of_wfAt {m : Memory} {c : Count} (h : WFAt (regRead m) c) :
    imageWF m = true ∧ countOf m = c := by
  obtain ⟨hocc, hblank⟩ := h
  refine imageWF_of_slots hocc fun k hk => Entry.ext_byte fun o => ?_
  rw [← regRead_slotAddr, blankEntry_byte]
  exact hblank _ (by rw [slotAddr_val]; omega)

theorem imageWF_iff_wf {m : Memory} : imageWF m = true ↔ WF (regRead m) :=
  ⟨wf_of_imageWF, fun ⟨_, h⟩ => (imageWF_and_countOf_of_wfAt h).1⟩

/-- An empty image is well-formed. -/
theorem wf_terminator : WF fun _ => Config.terminator :=
  ⟨0, fun k hk => absurd hk (Nat.not_lt_zero k.val), fun _ _ => rfl⟩

/-! ### WF is preserved (R82) -/

theorem exec_events {i : Instr} {s t : State} (h : exec i s = .next t) : t.events = s.events := by
  obtain ⟨r, rfl, -⟩ | ⟨v, out, rfl, -⟩ | ⟨a, b, c, d, -, -, -, -, hc, rfl⟩ | ⟨id, p, -, -, -, -, rfl⟩ := exec_next h <;>
    rfl

/-- A step takes the next event, whatever it is. -/
theorem step_events {s t : State} (h : step s = .next t) : t.events = s.events.tail := by
  obtain ⟨hs, rfl⟩ | ⟨C, rest, st, hs, -, rfl⟩ | ⟨C, rest, i, hs, -, hx⟩ | ⟨cold, v, rest, hs, rfl⟩ |
    ⟨C, point, cold, v, rest, m, hs, -, rfl⟩ := step_next h
  · simp [hs]
  · simp [hs]
  · simp [hs, exec_events hx]
  · simp [hs]
  · simp [hs]

/-- RWR appends an occupied slot at the count, RER frees the last occupied slot, and no other command writes REG. -/
theorem exec_wf {i : Instr} {s t : State} (hw : WF (regRead s.reg)) (h : exec i s = .next t) :
    WF (regRead t.reg) := by
  obtain ⟨r, rfl, -⟩ | ⟨v, out, rfl, -⟩ | ⟨a, b, c, d, -, ha, hi, -, hc, rfl⟩ | ⟨id, p, -, -, hi, hf, rfl⟩ := exec_next h
  · exact hw
  · exact hw
  · exact wf_of_imageWF (append_spec hi hc ha).1
  · exact wf_of_imageWF (compact_spec hi (findId_some.mp hf).1.1).1

theorem regRead_runReset_cold (v : Lfsr) (s : State) :
    regRead (runReset true v s).reg = fun _ => Config.terminator := by
  funext a
  simp

theorem regRead_runReset_warm (v : Lfsr) (s : State) :
    regRead (runReset false v s).reg = nvRead (runReset false v s).nv := by
  funext a
  simp

/-- A reset empties REG or loads it from NV (R105), so it gives a well-formed image unless it is warm. -/
theorem runReset_wf_or_warm (cold : Bool) (v : Lfsr) (s : State) :
    WF (regRead (runReset cold v s).reg) ∨
      cold = false ∧ regRead (runReset cold v s).reg = nvRead (runReset cold v s).nv := by
  cases cold with
  | true => exact .inl (regRead_runReset_cold v s ▸ wf_terminator)
  | false => exact .inr ⟨rfl, regRead_runReset_warm v s⟩

/-- A step keeps a well-formed image well-formed, or it is a warm reset that loads NV. -/
theorem step_wf_or_warm {s t : State} (hw : WF (regRead s.reg)) (h : step s = .next t) :
    WF (regRead t.reg) ∨
      (∃ e rest, s.events = e :: rest ∧ e.keepsOrClears = false) ∧ regRead t.reg = nvRead t.nv := by
  obtain ⟨-, rfl⟩ | ⟨C, rest, st, -, -, rfl⟩ | ⟨C, rest, i, -, -, hx⟩ | ⟨cold, v, rest, hs, rfl⟩ |
    ⟨C, point, cold, v, rest, m, hs, -, rfl⟩ := step_next h
  · exact .inl hw
  · exact .inl hw
  · exact .inl (exec_wf (s := s.setEvents rest) hw hx)
  · exact (runReset_wf_or_warm ..).imp_right fun ⟨hcold, hr⟩ => ⟨⟨_, rest, hs, hcold⟩, hr⟩
  · exact (runReset_wf_or_warm ..).imp_right fun ⟨hcold, hr⟩ => ⟨⟨_, rest, hs, hcold⟩, hr⟩

/-- Settles O35, from what a step can do to a well-formed image: the events to come shut out the warm reset, and a warm
reset leaves REG with the bytes of NV. -/
theorem wellFormednessIsPreserved : Obligations.WellFormednessIsPreserved := by
  refine ⟨fun s t ⟨hw, hev⟩ h => ⟨?kept, fun e he => ?events⟩, fun s t v rest hs h => ?cold, fun s t hw h hn => ?warm⟩
  case kept =>
    obtain hwt | ⟨⟨e, rest, hs, hk⟩, -⟩ := step_wf_or_warm hw h
    · exact hwt
    · exact absurd (hev e (by simp [hs])) (by simp [hk])
  case events =>
    rw [step_events h] at he
    exact hev e (List.mem_of_mem_tail he)
  case cold =>
    have ht : step s = .next (runReset true v (s.setEvents rest)) := by rw [step, hs]; rfl
    obtain rfl := Host.Outcome.next.inj (ht.symm.trans h)
    exact regRead_runReset_cold v _ ▸ wf_terminator
  case warm =>
    obtain ⟨he, hr⟩ := (step_wf_or_warm hw h).resolve_left hn
    exact ⟨he, hr ▸ hn⟩

/-! ### count_of and find (R73 to R75) -/

/-- The slot at the count, if there is one, is empty. -/
theorem empty_at_count {m : Memory} {k : SlotIdx} (h : k.val = (countOf m).val) :
    (readSlot m k).id0 = Config.terminator := by
  have hf := firstEmpty_of_lt (m := m) (by omega)
  rw [← slotEmpty_iff, show k = ⟨(countOf m).val, by omega⟩ from Fin.ext h]
  exact (firstEmpty_some.mp hf).1

/-- Settles O25: the slots below the count, the slot at it, and the blank slots of a well-formed image. -/
theorem countIsTheLeastEmptySlot : Obligations.CountIsTheLeastEmptySlot := by
  refine fun m => ⟨by omega, fun k hk => occupied_of_lt_count hk, fun k hk => empty_at_count hk, fun hw k hk => ?_⟩
  exact congrArg Entry.id0 (blank_of_count_le (imageWF_iff_wf.mpr hw) hk)

theorem entryId_readSlot_eq_iff {m : Memory} {k : SlotIdx} {a b c d : Byte} :
    entryId (readSlot m k) = [a, b, c, d] ↔
      regRead m (slotAddr k 0) = a ∧ regRead m (slotAddr k 1) = b ∧ regRead m (slotAddr k 2) = c ∧
        regRead m (slotAddr k 3) = d := by
  simp [entryId, readSlot]

/-- Settles O26: a slot before one that is below the count is below the count too, so it is no hit just if its
identifier is another. -/
theorem findIsTheLeastMatch : Obligations.FindIsTheLeastMatch := by
  intro m a b c d
  simp only [← entryId_readSlot_eq_iff, not_and]
  refine ⟨fun k => ?_, findId_none⟩
  rw [findId_some]
  refine and_congr_right fun ⟨hk, _⟩ => forall_congr' fun j => imp_congr_right fun hj => ?_
  exact ⟨fun hne _ => hne, fun hne => hne (by omega)⟩

/-! ### The command's own meaning in `exec` -/

theorem exec_rwr (id : List Byte) (s : State) : exec (.rwr id) s = execRwr id s := rfl

theorem exec_rer (id : List Byte) (s : State) : exec (.rer id) s = execRer id s := rfl

theorem exec_rpo (id : List Byte) (s : State) : exec (.rpo id) s = execRpo id s := rfl

theorem exec_rrd (index : Byte) (s : State) : exec (.rrd index) s = execRrd index s := rfl

/-! ### RWR (R76, R77) -/

section Rwr

variable {s : State} {id : List Byte}

/-- RWR on a well-formed registry where it does not append. -/
theorem exec_rwr_without_append (hw : WF (regRead s.reg)) :
    (id.length ≠ 4 → exec (.rwr id) s = .next (s.addResponse [0x03])) ∧
    (id.length = 4 → findId s.reg id ≠ none → exec (.rwr id) s = .next (s.addResponse [0x01])) ∧
    (id.length = 4 → findId s.reg id = none → (countOf s.reg).val = 20 →
      exec (.rwr id) s = .next (s.addResponse [0x03])) ∧
    (id.length = 4 → findId s.reg id = none → (countOf s.reg).val < 20 → id.head? = some Config.terminator →
      exec (.rwr id) s = .refused .terminatorIdentifier) := by
  have hi := imageWF_iff_wf.mpr hw
  simp only [exec_rwr]
  obtain ⟨h, -⟩ | ⟨-, hl, e⟩ | ⟨-, hl, hf, e⟩ | ⟨-, hl, hf, hc, e⟩ | ⟨-, hl, hf, hc, ha, e⟩ |
    ⟨a, b, c, d, rfl, ha, -, hf, hc, e⟩ := execRwr_cases id s
  · simp [hi] at h
  · exact ⟨fun _ => e, fun h => absurd h hl, fun h => absurd h hl, fun h => absurd h hl⟩
  · exact ⟨fun h => absurd hl h, fun _ _ => e, fun _ h => absurd h hf, fun _ h => absurd h hf⟩
  · exact ⟨fun h => absurd hl h, fun _ h => absurd hf h, fun _ _ _ => e, fun _ _ h => absurd h (by omega)⟩
  · exact ⟨fun h => absurd hl h, fun _ h => absurd hf h, fun _ _ h => absurd h (by omega), fun _ _ _ _ => e⟩
  · exact ⟨fun h => absurd rfl h, fun _ h => absurd hf h, fun _ _ h => absurd h (by omega),
      fun _ _ _ h => absurd (Option.some.inj h) ha⟩

end Rwr

/-- The identifier just appended is found in its slot: no slot before it holds it. -/
theorem findId_append {m : Memory} (hw : imageWF m = true) (hc : (countOf m).val < 20) {e : Entry}
    (he : e.id0 ≠ Config.terminator) (hf : findId m (entryId e) = none) :
    findId (writeSlot m ⟨(countOf m).val, hc⟩ e) (entryId e) = some ⟨(countOf m).val, hc⟩ := by
  refine findId_some.mpr ⟨⟨?_, by simp⟩, fun j hj => ?_⟩
  · rw [(append_spec hw hc he).2]
    exact Nat.lt_succ_self _
  · rw [readSlot_writeSlot, if_neg (Fin.ne_of_gt hj)]
    exact findId_none.mp hf j hj

/-- Settles O27: the answers that change nothing, and the image with one entry more. -/
theorem rwrFollowsItsRule : Obligations.RwrFollowsItsRule := by
  intro s id hw
  obtain ⟨hlength, hpresent, hfull, -⟩ := exec_rwr_without_append (id := id) hw
  refine ⟨hlength, hpresent, hfull, fun hl hf hc ha => ?append⟩
  obtain ⟨a, b, c, d, rfl⟩ := List.length_eq_four.mp hl
  have ha' : a ≠ Config.terminator := fun h => ha (congrArg some h)
  have hi := imageWF_iff_wf.mpr hw
  refine ⟨_, execRwr_commit hi hf hc ha', rfl, (append_spec hi hc ha').2, ?found, fun k hk => ?written,
    fun x hx => ?frame, fun x => nvRead_nvImage _ x, rfl, rfl, rfl⟩
  case found =>
    exact congrArg (Option.map Fin.val) (findId_append (e := ⟨a, b, c, d, Config.typeDefault⟩) hi hc ha' hf)
  case written =>
    rw [commitState_reg, readSlot_writeSlot, if_pos (Fin.ext hk.symm)]
    rfl
  case frame =>
    rw [commitState_reg, regRead_writeSlot, dif_neg (by simp only; omega)]

/-! ### RER (R78, R79) -/

section Rer

variable {s : State} {id : List Byte}

/-- RER on a well-formed registry where it does not remove. -/
theorem exec_rer_without_removal (hw : WF (regRead s.reg)) :
    (id.length ≠ 4 → exec (.rer id) s = .next (s.addResponse [0x03])) ∧
    (id.length = 4 → findId s.reg id = none → exec (.rer id) s = .next (s.addResponse [0x02])) := by
  have hi := imageWF_iff_wf.mpr hw
  simp only [exec_rer]
  obtain ⟨h, -⟩ | ⟨-, hl, e⟩ | ⟨-, hl, hf, e⟩ | ⟨-, hl, p, hf, e⟩ := execRer_cases id s
  · simp [hi] at h
  · exact ⟨fun _ => e, fun h => absurd h hl⟩
  · exact ⟨fun h => absurd hl h, fun _ _ => e⟩
  · exact ⟨fun h => absurd hl h, fun _ h => by simp [hf] at h⟩

end Rer

section Compact

variable {m : Memory} {p : SlotIdx} {a : Addr}

/-- The slots before the entry removed stay. -/
theorem regRead_compact_of_lt {c : Count} (hp : p.val < c.val) (ha : a.val < 5 * p.val) :
    regRead (compact m p c) a = regRead m a := by
  obtain ⟨k, o, rfl⟩ := exists_slotAddr a
  rw [slotAddr_val] at ha
  rw [regRead_slotAddr, regRead_slotAddr, readSlot_compact, if_neg (by omega), dif_neg (by omega)]

/-- Each later entry moves one slot down. -/
theorem regRead_compact_of_moved {c : Count} {b : Addr} (ha : 5 * p.val ≤ a.val) (hb : b.val = a.val + 5)
    (hbc : b.val < 5 * c.val) : regRead (compact m p c) a = regRead m b := by
  obtain ⟨k, o, rfl⟩ := exists_slotAddr a
  rw [slotAddr_val] at ha hb
  have hk : p.val ≤ k.val ∧ k.val + 1 < c.val := by omega
  have hb' : b = slotAddr ⟨k.val + 1, by omega⟩ o := Fin.ext (by rw [slotAddr_val, hb]; simp only; omega)
  rw [hb', regRead_slotAddr, regRead_slotAddr, readSlot_compact, if_neg (by omega), dif_pos hk]

/-- The vacated slot and those after it are blank (R79). -/
theorem regRead_compact_of_vacated (hw : imageWF m = true) (hp : p.val < (countOf m).val)
    (ha : 5 * (countOf m).val ≤ a.val + 5) : regRead (compact m p (countOf m)) a = Config.terminator := by
  obtain ⟨hw', hc'⟩ := compact_spec hw hp
  exact (imageWF_iff_at.mp hw').2 a (by omega)

end Compact

/-- Settles O29: the answers that change nothing, and the compacted image byte by byte. -/
theorem rerFollowsItsRule : Obligations.RerFollowsItsRule := by
  intro s id hw
  obtain ⟨hlength, habsent⟩ := exec_rer_without_removal (id := id) hw
  refine ⟨hlength, habsent, fun p hl hf => ?remove⟩
  have hi := imageWF_iff_wf.mpr hw
  have hp : p.val < (countOf s.reg).val := (findId_some.mp hf).1.1
  refine ⟨_, execRer_commit hi hl hf, rfl, ?count, fun a ha => regRead_compact_of_lt hp ha,
    fun a b ha hb hbc => regRead_compact_of_moved ha hb hbc, fun a ha => regRead_compact_of_vacated hi hp ha,
    fun a => nvRead_nvImage _ a, rfl, rfl, rfl⟩
  case count =>
    rw [commitState_reg, (compact_spec hi hp).2]
    omega

/-! ### RPO, RCT and RRD (R80, R81, R87) -/

section Rpo

variable {s : State} {id : List Byte}

/-- RPO on a well-formed registry. -/
theorem exec_rpo_of_wf (hw : WF (regRead s.reg)) :
    (id.length ≠ 4 ∨ findId s.reg id = none → exec (.rpo id) s = .next (s.addResponse [0x02])) ∧
    (∀ p : SlotIdx, id.length = 4 → findId s.reg id = some p →
      exec (.rpo id) s = .next (s.addResponse [0x00, BitVec.ofNat 8 p.val])) := by
  have hi := imageWF_iff_wf.mpr hw
  simp only [exec_rpo]
  obtain ⟨h, -⟩ | ⟨-, hn, e⟩ | ⟨-, hl, p, hf, e⟩ := execRpo_cases id s
  · simp [hi] at h
  · exact ⟨fun _ => e, fun p hl hf => by simp [hl, hf] at hn⟩
  · refine ⟨fun hn => by simp [hl, hf] at hn, fun q _ hq => ?_⟩
    obtain rfl := Option.some.inj (hf.symm.trans hq)
    exact e

end Rpo

/-- An index and a count are said in one byte. -/
theorem toNat_ofNat_of_le_twenty {n : Nat} (h : n ≤ 20) : (BitVec.ofNat 8 n).toNat = n := by
  rw [BitVec.toNat_ofNat]
  omega

/-- Settles O30: the two causes of NOT_FOUND, and the index as a byte. -/
theorem rpoFollowsItsRule : Obligations.RpoFollowsItsRule := by
  intro s id hw
  obtain ⟨hnot, hfound⟩ := exec_rpo_of_wf (id := id) hw
  exact ⟨fun hl => hnot (.inl hl), fun _ hf => hnot (.inr hf),
    fun p hl hf => ⟨_, toNat_ofNat_of_le_twenty (by omega), hfound p hl hf⟩⟩

/-- Settles O28: an identifier that begins with the terminator is absent, and the rules of RWR, RER and RPO say the
rest. -/
theorem terminatorIdentifiers : Obligations.TerminatorIdentifiers := by
  intro s b c d hw
  have hf : findId s.reg [0xFF, b, c, d] = none := findId_terminator s.reg b c d
  obtain ⟨-, -, hfull, hrefused⟩ := exec_rwr_without_append (id := [0xFF, b, c, d]) hw
  exact ⟨hf, fun hc => hrefused rfl hf hc rfl, fun hc => hfull rfl hf hc, (exec_rer_without_removal hw).2 rfl hf,
    (exec_rpo_of_wf hw).1 (.inr hf)⟩

/-- Settles O31: the test passes, and the count is said in one byte. -/
theorem rctFollowsItsRule : Obligations.RctFollowsItsRule := by
  intro s hw
  refine ⟨_, toNat_ofNat_of_le_twenty (by omega), ?_⟩
  obtain ⟨h, -⟩ | ⟨-, e⟩ := execRct_cases s
  · simp [imageWF_iff_wf.mpr hw] at h
  · exact e

/-- Settles O32, by the check of the index. -/
theorem rrdFollowsItsRule : Obligations.RrdFollowsItsRule := by
  intro s index
  simp only [exec_rrd]
  obtain ⟨hgt, e⟩ | ⟨hlt, e⟩ := execRrd_cases index s
  · exact ⟨fun _ => e, fun k hk => absurd k.isLt (by omega)⟩
  · refine ⟨fun h => absurd h (by omega), fun k hk => ?_⟩
    obtain rfl : k = ⟨index.toNat, hlt⟩ := Fin.ext hk
    exact e

/-! ### The durable copy (R83) -/

theorem mutates_eq_false_of_loadsLfsr {i : Instr} (h : loadsLfsr i = true) : mutates i = false := by
  cases i with
  | scr | dsc | rpo | rct | rrd => rfl
  | rwr | rer => cases h

theorem durable_commitState (s : State) (m : Memory) : Durable (commitState s m) := fun a => nvRead_nvImage _ a

/-- A command answers OK to a mutation and leaves NV = REG, or it leaves both memories as they were. -/
theorem exec_durable_or_same {i : Instr} {s t : State} (h : exec i s = .next t) :
    (mutates i = true ∧ t.responses = s.responses ++ [[0x00]] ∧ Durable t) ∨
      (¬(mutates i = true ∧ t.responses = s.responses ++ [[0x00]]) ∧ t.reg = s.reg ∧ t.nv = s.nv) := by
  obtain ⟨r, rfl, hr, -⟩ | ⟨v, out, rfl, hv⟩ | ⟨a, b, c, d, rfl, -, -, -, hc, rfl⟩ | ⟨id, p, rfl, -, -, -, rfl⟩ :=
    exec_next h
  · exact .inr ⟨fun ⟨hm, he⟩ => hr hm (by simpa using he), rfl, rfl⟩
  · exact .inr ⟨fun ⟨hm, _⟩ => by simp [mutates_eq_false_of_loadsLfsr hv] at hm, rfl, rfl⟩
  · exact .inl ⟨rfl, rfl, durable_commitState s _⟩
  · exact .inl ⟨rfl, rfl, durable_commitState s _⟩

/-- The same for a byte list; one that does not decode mutates nothing. -/
theorem runCommand_durable_or_same {C : List Byte} {s t : State} (h : runCommand C s = .next t) :
    ((∃ i, decode C = .ok i ∧ mutates i = true) ∧ t.responses = s.responses ++ [[0x00]] ∧ Durable t) ∨
      (¬((∃ i, decode C = .ok i ∧ mutates i = true) ∧ t.responses = s.responses ++ [[0x00]]) ∧
        t.reg = s.reg ∧ t.nv = s.nv) := by
  unfold runCommand at h
  cases hd : decode C with
  | error st =>
    rw [hd] at h
    obtain rfl := Host.Outcome.next.inj h
    exact .inr ⟨by simp, rfl, rfl⟩
  | ok i =>
    rw [hd] at h
    simpa using exec_durable_or_same h

/-- A cold reset empties REG and leaves NV as it was, so the two part where NV holds anything (R83). -/
theorem not_durable_runReset_cold {s : State} {a : Addr} (v : Lfsr) (h : nvRead s.nv a ≠ Config.terminator) :
    ¬Durable (runReset true v s) := by
  intro hd
  have ha := hd a
  rw [regRead_runReset_cold, runReset_nv] at ha
  exact h ha

/-- Settles O34: what a command does to the two memories; and a cold reset of the registry whose byte 0 is 0x31, just
persisted. -/
theorem durableCopyFollowsEveryMutation : Obligations.DurableCopyFollowsEveryMutation := by
  refine ⟨fun C s t h => ?command, (commitState State.reset [(0, 0x31)]).setEvents [.reset true 0], _, 0,
    durable_commitState State.reset [(0, 0x31)], rfl, rfl, not_durable_runReset_cold (a := 0) 0 ?cold⟩
  case command =>
    obtain ⟨hm, hr, hd⟩ | ⟨hn, hreg, hnv⟩ := runCommand_durable_or_same h
    · exact ⟨fun _ => hd, fun hn => absurd ⟨hm, hr⟩ hn, fun _ => hd⟩
    · exact ⟨fun hm => absurd hm hn, fun _ => ⟨hreg, hnv⟩, fun hd a => by rw [hreg, hnv]; exact hd a⟩
  case cold =>
    simp only [State.setEvents_nv, commitState_nv, nvRead_nvImage]
    decide

end Sys2Proof.Machine

/-! ## The exceptions family (60_exceptions.md): an answer other than OK changes no state -/

namespace Sys2Proof.Machine

/-- A command whose one response is not OK only answers: the other things a command can do all answer OK. -/
theorem exec_eq_addResponse_of_not_ok {i : Instr} {s t : State} {r : List Byte} (h : exec i s = .next t)
    (hr : t.responses = s.responses ++ [r]) (hok : r.head? ≠ some 0x00) : t = s.addResponse r := by
  obtain ⟨r', rfl, -⟩ | ⟨v, out, rfl, -⟩ | ⟨a, b, c, d, -, -, -, -, hc, rfl⟩ | ⟨id, p, -, -, -, -, rfl⟩ := exec_next h <;>
    obtain rfl := List.singleton_inj.mp (List.append_cancel_left hr)
  · rfl
  · exact absurd rfl hok
  · exact absurd rfl hok
  · exact absurd rfl hok

/-- Settles O11: a step over a command answers a byte list that is no command, which only answers, or runs the command. -/
theorem otherThanOkChangesNothing : Obligations.OtherThanOkChangesNothing := by
  intro s t C rest r hs h hr hok
  obtain ⟨hs', -⟩ | ⟨C', rest', st, hs', -, rfl⟩ | ⟨C', rest', i, hs', -, hx⟩ | ⟨cold, v, rest', hs', -⟩ |
    ⟨C', point, cold, v, rest', m, hs', -⟩ := step_next h <;> cases hs.symm.trans hs'
  · obtain rfl := List.singleton_inj.mp (List.append_cancel_left hr)
    rfl
  · exact exec_eq_addResponse_of_not_ok hx hr hok

end Sys2Proof.Machine

/-! ## The reset family (70_reset_and_hazards.md): a reset of an idle block and a reset inside a command -/

namespace Sys2Proof.Machine

section Reset

variable {s : State} {rest : List Event} {cold : Bool} {v : Lfsr}

/-! ### The step over a reset, and what it leaves in REG (R105) -/

theorem step_reset (hs : s.events = .reset cold v :: rest) : step s = .next (runReset cold v (s.setEvents rest)) := by
  rw [step, hs]
  rfl

theorem step_cut {C : List Byte} {point : CutPoint} {m : Memory} (hs : s.events = .cut C point cold v :: rest)
    (hm : cutNv C point (s.setEvents rest) = .ok m) :
    step s = .next (runReset cold v ((s.setEvents rest).setNv m)) := by
  rw [step, hs]
  simp only [runEvent, runCut, hm]

theorem regRead_runReset (cold : Bool) (v : Lfsr) (s : State) (a : Addr) :
    regRead (runReset cold v s).reg a = if cold then 0xFF else nvRead s.nv a := by
  rw [runReset_reg, regRead_regImage]
  cases cold <;> rfl

end Reset

/-- Settles O44: the step is the reset itself, which empties REG or loads it from NV. -/
theorem resetRebuildsTheWorkingImage : Obligations.ResetRebuildsTheWorkingImage := by
  intro s cold v rest hs
  refine ⟨_, step_reset hs, fun hc a => (regRead_runReset cold v _ a).trans (if_pos hc), fun hw => ?warm, rfl, rfl, rfl,
    rfl, rfl⟩
  case warm =>
    subst hw
    rw [regRead_runReset_warm]
    exact ⟨fun _ => rfl, Iff.rfl⟩

/-! ### What a command cut short was about to do (R109) -/

theorem statusCode_eq_zero_iff {st : Status} : statusCode st = 0x00 ↔ st = .ok := by
  cases st <;> decide

section Plan

variable {i : Instr} {C : List Byte} {s t : State} {p : Plan}

theorem persistPlan_of_not_mutates (h : mutates i = false) (m : Memory) : persistPlan i m = none := by
  cases i with
  | scr | dsc | rpo | rct | rrd => rfl
  | rwr | rer => cases h

/-- RWR and RER carry out their plan. -/
theorem exists_persistPlan_of_mutates (h : mutates i = true) (s : State) :
    ∃ p, persistPlan i s.reg = some p ∧ exec i s = finishPlan p s := by
  cases i with
  | scr | dsc | rpo | rct | rrd => cases h
  | rwr | rer => exact ⟨_, rfl, rfl⟩

/-- A plan that only answers never answers OK. -/
theorem persistPlan_answer_ne_ok {m : Memory} {st : Status} (h : persistPlan i m = some (.answer st)) : st ≠ .ok := by
  cases i with
  | scr | dsc | rpo | rct | rrd => cases h
  | rwr id =>
    have h' := Option.some.inj h
    obtain ⟨-, e⟩ | ⟨-, -, e⟩ | ⟨-, -, -, e⟩ | ⟨-, -, -, -, e⟩ | ⟨a, b, c, d, rfl, -, -, hc, ⟨-, e⟩ | ⟨-, e⟩⟩ :=
      rwrPlan_cases Config.typeDefault id m <;> cases e.symm.trans h' <;> decide
  | rer id =>
    have h' := Option.some.inj h
    obtain ⟨-, e⟩ | ⟨-, -, e⟩ | ⟨-, -, -, e⟩ | ⟨-, -, p, -, e⟩ := rerPlan_cases id m <;>
      cases e.symm.trans h' <;> decide

/-- An RWR or RER that answers had planned either to answer another status than OK and do no more, or to commit. -/
theorem persistPlan_of_exec (hm : mutates i = true) (h : exec i s = .next t) :
    (∃ st, persistPlan i s.reg = some (.answer st) ∧ st ≠ .ok ∧ t = s.addResponse [statusCode st]) ∨
      ∃ m, persistPlan i s.reg = some (.commit m) ∧ t = commitState s m := by
  obtain ⟨p, hp, he⟩ := exists_persistPlan_of_mutates hm s
  obtain ⟨st, rfl, ht⟩ | ⟨m, rfl, ht⟩ := finishPlan_next (he ▸ h)
  · exact .inl ⟨st, hp, persistPlan_answer_ne_ok hp, ht⟩
  · exact .inr ⟨m, hp, ht⟩

theorem commandPlan_of_decode_error {st : Status} (h : decode C = .error st) (m : Memory) : commandPlan C m = none := by
  simp only [commandPlan, h]

theorem commandPlan_of_decode_ok (h : decode C = .ok i) (m : Memory) : commandPlan C m = persistPlan i m := by
  simp only [commandPlan, h]

/-- The response tells the plan: an RWR or RER that answers OK was going to reach Persist. -/
theorem commandPlan_commit_of_ok (hd : decode C = .ok i) (hm : mutates i = true) (h : exec i s = .next t)
    (hr : t.responses = s.responses ++ [[0x00]]) :
    ∃ m, commandPlan C s.reg = some (.commit m) ∧ t = commitState s m := by
  rw [commandPlan_of_decode_ok hd]
  obtain ⟨st, -, hst, rfl⟩ | hc := persistPlan_of_exec hm h
  · have hz : statusCode st = 0x00 := by simpa using hr
    exact absurd (statusCode_eq_zero_iff.mp hz) hst
  · exact hc

/-- A command is not going to reach Persist: it has no plan for the registry, or its plan is only to answer. -/
def NoPersist (C : List Byte) (m : Memory) : Prop :=
  commandPlan C m = none ∨ ∃ st, commandPlan C m = some (.answer st)

theorem noPersist_of_not_mutates (hd : decode C = .ok i) (hm : mutates i = false) (m : Memory) : NoPersist C m :=
  .inl ((commandPlan_of_decode_ok hd m).trans (persistPlan_of_not_mutates hm m))

/-- The response tells the plan: a command that answers another status than OK was not going to reach Persist. -/
theorem noPersist_of_not_ok {r : List Byte} (hd : decode C = .ok i) (h : exec i s = .next t)
    (hr : t.responses = s.responses ++ [r]) (hok : r ≠ [0x00]) : NoPersist C s.reg := by
  cases hm : mutates i with
  | false => exact noPersist_of_not_mutates hd hm s.reg
  | true =>
    obtain ⟨st, hp, -⟩ | ⟨m, -, rfl⟩ := persistPlan_of_exec hm h
    · exact .inr ⟨st, (commandPlan_of_decode_ok hd s.reg).trans hp⟩
    · have hz : r = [0x00] := by simpa using hr.symm
      exact absurd hz hok

/-! ### NV as the reset finds it (R109, R110) -/

theorem cutNv_of_noPersist (h : NoPersist C s.reg) (point : CutPoint) : cutNv C point s = .ok s.nv := by
  obtain h | ⟨st, h⟩ := h <;> cases point <;> simp only [cutNv, h]

theorem cutNv_insidePersist {m : Memory} (h : commandPlan C s.reg = some (.commit m)) (draw : Vector Byte 100) :
    cutNv C (.insidePersist draw) s = .ok (nvImage fun a => draw[a]) := by
  simp only [cutNv, h]

end Plan

/-- Settles O45: a cut that answers is a reset with the NV it finds, and NV is found as it was before Persist or where
no Persist was to come. -/
theorem resetInsideACommand : Obligations.ResetInsideACommand := by
  intro s C point cold v rest hs
  refine ⟨fun t h => ?rebuilt, fun hno => ?unchanged⟩
  case rebuilt =>
    obtain ⟨hs', -⟩ | ⟨C', rest', st, hs', -⟩ | ⟨C', rest', i, hs', -⟩ | ⟨cold', v', rest', hs', -⟩ |
      ⟨C', point', cold', v', rest', m, hs', -, rfl⟩ := step_next h <;> cases hs.symm.trans hs'
    refine ⟨rfl, rfl, rfl, rfl, fun hc a => (regRead_runReset cold v _ a).trans (if_pos hc), fun hw a => ?_⟩
    subst hw
    rw [regRead_runReset_warm]
  case unchanged =>
    have hcut : cutNv C point (s.setEvents rest) = .ok s.nv := by
      obtain rfl | ⟨st, hd⟩ | ⟨i, hd, hm⟩ | ⟨i, t, r, hd, hx, hr, hok⟩ := hno
      · rfl
      · exact cutNv_of_noPersist (.inl (commandPlan_of_decode_error hd _)) point
      · exact cutNv_of_noPersist (noPersist_of_not_mutates hd hm _) point
      · exact cutNv_of_noPersist (noPersist_of_not_ok hd hx hr hok) point
    exact ⟨_, step_cut hs hcut, rfl⟩

/-- Settles O46: the OK answer tells that the command commits, so the reset finds the draw in NV and rebuilds from it. -/
theorem interruptedPersistLeavesAnyImage : Obligations.InterruptedPersistLeavesAnyImage := by
  intro s u C i draw cold v rest hs hd hm hx hr
  obtain ⟨m, hp, -⟩ := commandPlan_commit_of_ok hd hm hx hr
  refine ⟨_, step_cut hs (cutNv_insidePersist hp draw), fun a => nvRead_nvImage _ a, rfl, fun a => ?_⟩
  rw [regRead_runReset, State.setNv_nv, nvRead_nvImage]

end Sys2Proof.Machine

/-! ## The other statements, across the families -/

namespace Sys2Proof

/-! ### Encoding and decoding undo each other (R41 to R46) -/

section Formats

variable {mk : Byte → Byte → Byte → List Byte → Instr} {mkI : List Byte → Instr} {data id rest : List Byte}
  {op : Byte} {i : Instr}

theorem decodeS_lengthByte (h : data.length ≤ 20) (a b c : Byte) :
    decodeS mk (a :: b :: c :: lengthByte data :: data) = .ok (mk a b c data) := by
  have hn : (lengthByte data).toNat = data.length := lengthByte_toNat (by omega)
  exact decodeS_of_le_maxLen hn.symm (hn ▸ h)

theorem decodeI_lengthByte (h : id.length ≤ 255) : decodeI mkI (lengthByte id :: id) = .ok (mkI id) :=
  decodeI_of_length_eq (lengthByte_toNat h).symm

/-- What a format-S decoder accepts is the encoding of what it answers. -/
theorem encode_of_decodeS (henc : ∀ a b c data, encode (mk a b c data) = op :: a :: b :: c :: lengthByte data :: data)
    (hwf : ∀ a b c data, (mk a b c data).wellFormed = decide (data.length ≤ Config.scrMaxLen))
    (h : decodeS mk rest = .ok i) : encode i = op :: rest ∧ i.wellFormed = true := by
  obtain ⟨a, b, c, n, data, rfl, hlen, hn, rfl⟩ := decodeS_ok h
  exact ⟨by rw [henc, lengthByte_eq hlen], by rw [hwf, hlen]; exact decide_eq_true hn⟩

/-- What a format-I decoder accepts is the encoding of what it answers. -/
theorem encode_of_decodeI (henc : ∀ id, encode (mkI id) = op :: lengthByte id :: id)
    (hwf : ∀ id, (mkI id).wellFormed = decide (id.length ≤ 255))
    (h : decodeI mkI rest = .ok i) : encode i = op :: rest ∧ i.wellFormed = true := by
  obtain ⟨idlen, id, rfl, hlen, rfl⟩ := decodeI_ok h
  exact ⟨by rw [henc, lengthByte_eq hlen], by rw [hwf, hlen]; exact decide_eq_true (by omega)⟩

end Formats

/-- Settles O1: the opcode selects the format's decoder, and the length byte says the length of the list after it. -/
theorem decodeOfEncode : Obligations.DecodeOfEncode := by
  intro i h
  cases i with
  | scr a b c data | dsc a b c data => exact decodeS_lengthByte (of_decide_eq_true h) a b c
  | rwr id | rer id | rpo id => exact decodeI_lengthByte (of_decide_eq_true h)
  | rct | rrd index => rfl

/-- The opcode is one of the map's seven, or the list is rejected for it (R44, R45). -/
theorem decode_illegalOpcode_or_opcode (op : Byte) (rest : List Byte) :
    decode (op :: rest) = .error .illegalOpcode ∨ op = opScr ∨ op = opDsc ∨ op = opRwr ∨ op = opRer ∨ op = opRpo ∨
      op = opRct ∨ op = opRrd := by
  by_cases hop : op ∈ ([0x01, 0x02, 0x10, 0x11, 0x12, 0x13, 0x14] : List Byte)
  · exact .inr (by simpa using hop)
  · exact .inl (decode_illegalOpcode hop rest)

/-- Settles O2: a list that decodes begins with one of the seven opcodes, and its format's decoder has read it whole. -/
theorem encodeOfDecode : Obligations.EncodeOfDecode := by
  intro C i h
  cases C with
  | nil => cases h
  | cons op rest =>
    obtain he | rfl | rfl | rfl | rfl | rfl | rfl | rfl := decode_illegalOpcode_or_opcode op rest
    · cases he.symm.trans h
    · exact encode_of_decodeS (mk := .scr) (fun _ _ _ _ => rfl) (fun _ _ _ _ => rfl) h
    · exact encode_of_decodeS (mk := .dsc) (fun _ _ _ _ => rfl) (fun _ _ _ _ => rfl) h
    · exact encode_of_decodeI (mkI := .rwr) (fun _ => rfl) (fun _ => rfl) h
    · exact encode_of_decodeI (mkI := .rer) (fun _ => rfl) (fun _ => rfl) h
    · exact encode_of_decodeI (mkI := .rpo) (fun _ => rfl) (fun _ => rfl) h
    · obtain ⟨rfl, rfl⟩ := decodeN_ok (j := .rct) h
      exact ⟨rfl, rfl⟩
    · obtain ⟨index, rfl, rfl⟩ := decodeX_ok (mk := .rrd) h
      exact ⟨rfl, rfl⟩

/-- Settles O4: each list is read by the decoder of its opcode. -/
theorem specExamplesDecode : Obligations.SpecExamplesDecode := ⟨rfl, rfl, rfl, rfl, rfl, rfl, rfl⟩

/-- R50: decoding rejects with one of three statuses. -/
theorem decode_error {C : List Byte} {st : Status} (h : decode C = .error st) :
    st = .illegalOpcode ∨ st = .malformed ∨ st = .badLength := by
  cases C with
  | nil => exact .inr (.inl (Except.error.inj h).symm)
  | cons op rest =>
    obtain he | rfl | rfl | rfl | rfl | rfl | rfl | rfl := decode_illegalOpcode_or_opcode op rest
    · exact .inl (Except.error.inj (he.symm.trans h)).symm
    · exact .inr (decodeS_error (mk := .scr) h)
    · exact .inr (decodeS_error (mk := .dsc) h)
    · exact .inr (.inl (decodeI_error (mk := .rwr) h))
    · exact .inr (.inl (decodeI_error (mk := .rer) h))
    · exact .inr (.inl (decodeI_error (mk := .rpo) h))
    · exact .inr (.inl (decodeN_error (j := .rct) h))
    · exact .inr (.inl (decodeX_error (mk := .rrd) h))

end Sys2Proof

namespace Sys2Proof.Machine

/-- Settles O5: each status has its row in the table, and no row is outside the two ranges. -/
theorem statusCodesOfTheTable : Obligations.StatusCodesOfTheTable := by
  refine ⟨rfl, rfl, rfl, rfl, rfl, rfl, rfl, rfl, ?_⟩
  rintro b ⟨st, rfl⟩
  cases st <;> decide

/-! ### The step over a command (R45, R50, R121) -/

section Command

variable {s : State} {C : List Byte} {rest : List Event}

theorem step_command (hs : s.events = .command C :: rest) : step s = runCommand C (s.setEvents rest) := by
  rw [step, hs]
  rfl

theorem runCommand_of_decode_ok {i : Instr} (h : decode C = .ok i) (s : State) : runCommand C s = exec i s := by
  simp only [runCommand, h]

theorem runCommand_of_decode_error {st : Status} (h : decode C = .error st) (s : State) :
    runCommand C s = .next (s.addResponse [statusCode st]) := by
  simp only [runCommand, h, raise_eq]

end Command

/-- Settles O6: a step over a command runs it, and a command that decodes runs as its meaning. -/
theorem stepRunsTheDecodedCommand : Obligations.StepRunsTheDecodedCommand := fun _ _ _ _ hs hd =>
  (step_command hs).trans (runCommand_of_decode_ok hd _)

/-- Settles O7: a step over a command that does not decode is a raise of one of decoding's statuses. -/
theorem undecodableCommandIsAnswered : Obligations.UndecodableCommandIsAnswered := fun _ _ _ _ hs hd =>
  ⟨(step_command hs).trans (runCommand_of_decode_error hd _), decode_error hd⟩

/-- Settles O8, by the step's first case. -/
theorem idleBlockStaysAsItIs : Obligations.IdleBlockStaysAsItIs := by
  intro s hs
  rw [step, hs]

/-! ### The canonical form (log 13) -/

/-- A command that answers keeps the canonical form: RWR writes one slot, RER compacts, and both persist a whole image. -/
theorem exec_canonical {i : Instr} {s t : State} (hc : Canonical s) (h : exec i s = .next t) : Canonical t := by
  have hreg : Memory.wf regBlank s.reg = true := hc.1
  obtain ⟨r, rfl, -⟩ | ⟨v, out, rfl, -⟩ | ⟨a, b, c, d, -, -, -, -, hlt, rfl⟩ | ⟨id, p, -, -, -, -, rfl⟩ := exec_next h
  · exact hc
  · exact hc
  · exact ⟨wf_writeSlot hreg _ _, wf_nvImage _⟩
  · exact ⟨wf_compact hreg _ _, wf_nvImage _⟩

/-- A reset builds REG as a whole image and leaves NV as it finds it. -/
theorem runReset_canonical {s : State} (h : Memory.wf nvBlank s.nv = true) (cold : Bool) (v : Lfsr) :
    Canonical (runReset cold v s) :=
  ⟨wf_regImage _, h⟩

/-- Settles O42, by what a step can do: a cut finds NV as it was or as a whole image. -/
theorem canonicalFormIsPreserved : Obligations.CanonicalFormIsPreserved := by
  intro s t hc h
  have hnv : Memory.wf nvBlank s.nv = true := hc.2
  obtain ⟨-, rfl⟩ | ⟨C, rest, st, -, -, rfl⟩ | ⟨C, rest, i, -, -, hx⟩ | ⟨cold, v, rest, -, rfl⟩ |
    ⟨C, point, cold, v, rest, m, -, hm, rfl⟩ := step_next h
  · exact hc
  · exact hc
  · exact exec_canonical (s := s.setEvents rest) hc hx
  · exact runReset_canonical (s := s.setEvents rest) hnv cold v
  · refine runReset_canonical ?_ cold v
    obtain rfl | ⟨f, rfl⟩ := cutNv_ok hm
    · exact hnv
    · exact wf_nvImage f

/-! ### The premise ASSUME_NV_FLAG (R108) -/

/-- A warm reset loads REG from NV. -/
theorem durable_runReset_warm (v : Lfsr) (s : State) : Durable (runReset false v s) := fun a =>
  (congrFun (regRead_runReset_warm v s) a).symm

theorem exists_commandPlan_of_commits {C : List Byte} {m : Memory} (h : commits C m = true) :
    ∃ m', commandPlan C m = some (.commit m') := by
  unfold commits at h
  split at h
  · exact ⟨_, ‹_›⟩
  all_goals cases h

/-- A command that is going to reach Persist is an RWR or RER, and commits its image. -/
theorem runCommand_of_commandPlan_commit {C : List Byte} {s : State} {m : Memory}
    (h : commandPlan C s.reg = some (.commit m)) : runCommand C s = .next (commitState s m) := by
  cases hd : decode C with
  | error st => cases (commandPlan_of_decode_error hd s.reg).symm.trans h
  | ok i =>
    rw [commandPlan_of_decode_ok hd] at h
    cases hm : mutates i with
    | false => cases (persistPlan_of_not_mutates hm s.reg).symm.trans h
    | true =>
      obtain ⟨p, hp, he⟩ := exists_persistPlan_of_mutates hm s
      obtain rfl := Option.some.inj (hp.symm.trans h)
      rw [runCommand_of_decode_ok hd, he, finishPlan_commit]

/-- NV = REG after a command when it held before or the command reaches Persist. -/
theorem runCommand_durable {C : List Byte} {s t : State} (hd : commits C s.reg = true ∨ Durable s)
    (h : runCommand C s = .next t) : Durable t := by
  obtain hc | hd := hd
  · obtain ⟨m, hm⟩ := exists_commandPlan_of_commits hc
    obtain rfl := Host.Outcome.next.inj ((runCommand_of_commandPlan_commit hm).symm.trans h)
    exact durable_commitState s m
  · obtain ⟨-, -, hdt⟩ | ⟨-, hreg, hnv⟩ := runCommand_durable_or_same h
    · exact hdt
    · exact fun a => by rw [hreg, hnv]; exact hd a

/-- Settles O48: under the premise a reset after which the flag holds is warm and loads REG from NV; a command keeps
NV = REG or makes it so. -/
theorem registrySurvivesResetUnderThePremise : Obligations.RegistrySurvivesResetUnderThePremise := by
  refine ⟨fun s t flag e rest hs hd hp h hf => ?step, fun s cold v rest hs hd hp => ?idle⟩
  case step =>
    cases e with
    | command C =>
      refine runCommand_durable (s := s.setEvents rest) ?_ ((step_command hs).symm.trans h)
      exact ((Bool.or_eq_true _ _).mp hf).imp_right hd
    | reset cold v =>
      obtain rfl := Host.Outcome.next.inj ((step_reset hs).symm.trans h)
      obtain rfl : cold = false := by simpa [assumeNvFlag, hf] using hp
      exact durable_runReset_warm v _
    | cut C point cold v =>
      obtain rfl : cold = false := by simpa [assumeNvFlag, hf] using hp
      obtain ⟨hs', -⟩ | ⟨_, _, _, hs', -⟩ | ⟨_, _, _, hs', -⟩ | ⟨_, _, _, hs', -⟩ | ⟨_, _, _, _, _, m, hs', -, rfl⟩ :=
        step_next h <;> cases hs.symm.trans hs'
      exact durable_runReset_warm v _
  case idle =>
    obtain rfl : cold = false := hp
    refine ⟨_, step_reset hs, durable_runReset_warm v _, fun a => ?_⟩
    rw [regRead_runReset_warm]
    exact hd a

/-! ### Which state a command may write, and what it answers (R12 to R21, R49) -/

/-- Settles O12: a command only answers, loads LFSR, or commits an image, and RWR and RER alone commit. -/
theorem eachCommandWritesOnlyItsOwnState : Obligations.EachCommandWritesOnlyItsOwnState := by
  intro i s t h
  obtain ⟨r, rfl, -⟩ | ⟨v, out, rfl, hv⟩ | ⟨a, b, c, d, rfl, -, -, -, hc, rfl⟩ | ⟨id, p, rfl, -, -, -, rfl⟩ := exec_next h
  · exact ⟨rfl, rfl, fun _ => rfl, fun _ => ⟨rfl, rfl⟩⟩
  · exact ⟨rfl, rfl, fun hn => by simp [hv] at hn, fun _ => ⟨rfl, rfl⟩⟩
  · exact ⟨rfl, rfl, fun _ => rfl, fun hn => by cases hn⟩
  · exact ⟨rfl, rfl, fun _ => rfl, fun hn => by cases hn⟩

/-- Settles O10, by the cases of each command. -/
theorem responsePayloads : Obligations.ResponsePayloads := by
  intro i s t h
  cases i with
  | scr a b c data =>
    cases (exec_scr a b c data s).symm.trans h
    exact ⟨_, rfl, _, rfl, xform_length ..⟩
  | dsc a b c data =>
    cases (exec_dsc a b c data s).symm.trans h
    exact ⟨_, rfl, _, rfl, xform_length ..⟩
  | rwr id =>
    obtain ⟨-, e⟩ | ⟨-, -, e⟩ | ⟨-, -, -, e⟩ | ⟨-, -, -, -, e⟩ | ⟨-, -, -, -, -, e⟩ |
      ⟨a, b, c, d, rfl, -, -, -, hc, e⟩ := execRwr_cases id s <;> cases e.symm.trans h
    · exact ⟨_, rfl, .inr (.inr rfl)⟩
    · exact ⟨_, rfl, .inr (.inl rfl)⟩
    · exact ⟨_, rfl, .inr (.inr rfl)⟩
    · exact ⟨_, rfl, .inl rfl⟩
  | rer id =>
    obtain ⟨-, e⟩ | ⟨-, -, e⟩ | ⟨-, -, -, e⟩ | ⟨-, -, p, -, e⟩ := execRer_cases id s <;> cases e.symm.trans h
    · exact ⟨_, rfl, .inr (.inr rfl)⟩
    · exact ⟨_, rfl, .inr (.inl rfl)⟩
    · exact ⟨_, rfl, .inl rfl⟩
  | rpo id =>
    obtain ⟨-, e⟩ | ⟨-, -, e⟩ | ⟨-, -, p, -, e⟩ := execRpo_cases id s <;> cases e.symm.trans h
    · exact ⟨_, rfl, .inl rfl⟩
    · refine ⟨_, rfl, .inr ⟨_, rfl, ?_⟩⟩
      rw [toNat_ofNat_of_le_twenty (by omega)]
      omega
  | rct =>
    obtain ⟨-, e⟩ | ⟨-, e⟩ := execRct_cases s <;> cases e.symm.trans h
    refine ⟨_, rfl, _, rfl, ?_⟩
    rw [toNat_ofNat_of_le_twenty (by omega)]
    omega
  | rrd index =>
    obtain ⟨hgt, e⟩ | ⟨hlt, e⟩ := execRrd_cases index s <;> cases e.symm.trans h
    · exact ⟨_, rfl, .inl ⟨rfl, hgt⟩⟩
    · exact ⟨_, rfl, .inr ⟨_, _, _, _, _, rfl, by omega⟩⟩

/-! ### Where a command has a meaning (R72, R77) -/

theorem exec_rct (s : State) : exec .rct s = execRct s := rfl

theorem hasMeaning_of_not_needsWF {i : Instr} (hn : needsWF i = false) (hw : writesTerminator i = false) (m : Memory) :
    HasMeaning i m := by
  simp [HasMeaning, hn, hw]

theorem hasMeaning_iff_of_needsWF {i : Instr} {m : Memory} (hn : needsWF i = true) (hw : writesTerminator i = false) :
    HasMeaning i m ↔ imageWF m = true := by
  simp [HasMeaning, hn, hw, imageWF_iff_wf]

theorem hasMeaning_rwr_iff {id : List Byte} {m : Memory} :
    HasMeaning (.rwr id) m ↔
      imageWF m = true ∧ (id.length = 4 → id.head? = some Config.terminator → (countOf m).val = 20) := by
  simp [HasMeaning, needsWF, writesTerminator, imageWF_iff_wf]

/-- An identifier that is found does not begin with the terminator (R77). -/
theorem head?_ne_terminator_of_findId {m : Memory} {id : List Byte} (hl : id.length = 4) (hf : findId m id ≠ none) :
    id.head? ≠ some Config.terminator := by
  obtain ⟨a, b, c, d, rfl⟩ := List.length_eq_four.mp hl
  intro ha
  obtain rfl := Option.some.inj ha
  exact hf (findId_terminator m b c d)

/-- Settles O13: case by case a command answers where it has a meaning and is refused where it has none. -/
theorem commandsRunExactlyWhereTheyHaveAMeaning : Obligations.CommandsRunExactlyWhereTheyHaveAMeaning := by
  intro i s
  cases i with
  | scr a b c data => exact iff_of_true ⟨_, exec_scr a b c data s⟩ (hasMeaning_of_not_needsWF rfl rfl _)
  | dsc a b c data => exact iff_of_true ⟨_, exec_dsc a b c data s⟩ (hasMeaning_of_not_needsWF rfl rfl _)
  | rwr id =>
    rw [hasMeaning_rwr_iff, exec_rwr]
    obtain ⟨hi, e⟩ | ⟨hi, hl, e⟩ | ⟨hi, hl, hf, e⟩ | ⟨hi, -, -, hc, e⟩ | ⟨hi, hl, -, hc, ha, e⟩ |
      ⟨a, b, c, d, rfl, ha, hi, -, hc, e⟩ := execRwr_cases id s
    · exact iff_of_false (by simp [e]) (by simp [hi])
    · exact iff_of_true ⟨_, e⟩ ⟨hi, fun h => absurd h hl⟩
    · exact iff_of_true ⟨_, e⟩ ⟨hi, fun _ h => absurd h (head?_ne_terminator_of_findId hl hf)⟩
    · exact iff_of_true ⟨_, e⟩ ⟨hi, fun _ _ => hc⟩
    · exact iff_of_false (by simp [e]) fun ⟨_, h⟩ => absurd (h hl ha) (by omega)
    · exact iff_of_true ⟨_, e⟩ ⟨hi, fun _ h => absurd (Option.some.inj h) ha⟩
  | rer id =>
    rw [hasMeaning_iff_of_needsWF rfl rfl, exec_rer]
    obtain ⟨hi, e⟩ | ⟨hi, -, e⟩ | ⟨hi, -, -, e⟩ | ⟨hi, -, p, -, e⟩ := execRer_cases id s <;> simp [hi, e]
  | rpo id =>
    rw [hasMeaning_iff_of_needsWF rfl rfl, exec_rpo]
    obtain ⟨hi, e⟩ | ⟨hi, -, e⟩ | ⟨hi, -, p, -, e⟩ := execRpo_cases id s <;> simp [hi, e]
  | rct =>
    rw [hasMeaning_iff_of_needsWF rfl rfl, exec_rct]
    obtain ⟨hi, e⟩ | ⟨hi, e⟩ := execRct_cases s <;> simp [hi, e]
  | rrd index =>
    refine iff_of_true ?_ (hasMeaning_of_not_needsWF rfl rfl _)
    obtain ⟨-, e⟩ | ⟨hlt, e⟩ := execRrd_cases index s <;> exact ⟨_, e⟩

/-- Settles O24: the test is WF, and the `c` of a well-formed image is its count. -/
theorem wellFormednessIsTested : Obligations.WellFormednessIsTested := fun _ =>
  ⟨imageWF_iff_wf, fun _ h => (imageWF_and_countOf_of_wfAt h).2.symm⟩

/-- Settles O33: the test fails, so the four commands that make it are refused; the others do not make it. -/
theorem illFormedImageIsRefused : Obligations.IllFormedImageIsRefused := by
  intro s hw
  have hi : imageWF s.reg = false := Bool.eq_false_iff.mpr fun h => hw (imageWF_iff_wf.mp h)
  refine ⟨fun id => ⟨?rwr, ?rer, ?rpo⟩, ?rct,
    fun a b c data => ⟨⟨_, exec_scr a b c data s⟩, _, exec_dsc a b c data s⟩, fun index => ?rrd⟩
  case rwr => simp [exec_rwr, execRwr, rwrPlan, hi, finishPlan_refuse]
  case rer => simp [exec_rer, execRer, rerPlan, hi, finishPlan_refuse]
  case rpo => simp [exec_rpo, execRpo, hi]
  case rct => simp [exec_rct, execRct, hi]
  case rrd => exact (commandsRunExactlyWhereTheyHaveAMeaning (.rrd index) s).mpr (hasMeaning_of_not_needsWF rfl rfl _)

/-! ### The value of LFSR is unobservable (R20) -/

/-- Two outcomes that differ at most in the LFSR of the next state. -/
def SameButLfsr (o o' : Host.Outcome State Fault Refusal) : Prop :=
  (∀ t, o = .next t → ∃ w, o' = .next (t.setLfsr w)) ∧ ∀ r, o = .refused r → o' = .refused r

theorem sameButLfsr_next (t : State) (w : Lfsr) : SameButLfsr (.next t) (.next (t.setLfsr w)) :=
  ⟨fun _ h => ⟨w, Host.Outcome.next.inj h ▸ rfl⟩, nofun⟩

theorem sameButLfsr_refused (r : Refusal) : SameButLfsr (.refused r) (.refused r) :=
  ⟨nofun, fun _ h => h⟩

theorem sameButLfsr_refl (o : Host.Outcome State Fault Refusal) : SameButLfsr o o :=
  ⟨fun t h => ⟨t.lfsr, h⟩, fun _ h => h⟩

theorem sameButLfsr_ite {p : Prop} [Decidable p] {a b a' b' : Host.Outcome State Fault Refusal}
    (ha : SameButLfsr a a') (hb : SameButLfsr b b') : SameButLfsr (if p then a else b) (if p then a' else b') := by
  split
  · exact ha
  · exact hb

theorem finishPlan_setLfsr (p : Plan) (s : State) (v : Lfsr) :
    SameButLfsr (finishPlan p s) (finishPlan p (s.setLfsr v)) := by
  cases p with
  | answer st => exact sameButLfsr_next _ v
  | refuse r => exact sameButLfsr_refused r
  | commit m => exact sameButLfsr_next _ v

/-- SCR and DSC overwrite LFSR; no other command reads it. -/
theorem exec_setLfsr (i : Instr) (s : State) (v : Lfsr) : SameButLfsr (exec i s) (exec i (s.setLfsr v)) := by
  cases i with
  | scr a b c data | dsc a b c data => exact sameButLfsr_refl _
  | rwr id | rer id => exact finishPlan_setLfsr _ s v
  | rpo id =>
    simp only [exec_rpo, execRpo, State.setLfsr_reg]
    refine sameButLfsr_ite (sameButLfsr_ite (sameButLfsr_next _ v) ?_) (sameButLfsr_refused _)
    cases findId s.reg id <;> exact sameButLfsr_next _ v
  | rct => exact sameButLfsr_ite (sameButLfsr_next _ v) (sameButLfsr_refused _)
  | rrd index =>
    simp only [exec_rrd, execRrd]
    cases indexOperand index <;> exact sameButLfsr_next _ v

/-- A reset, in or out of a command, overwrites LFSR. -/
theorem runEvent_setLfsr (e : Event) (s : State) (v : Lfsr) :
    SameButLfsr (runEvent e s) (runEvent e (s.setLfsr v)) := by
  cases e with
  | command C =>
    simp only [runEvent, runCommand]
    cases decode C with
    | error st => exact sameButLfsr_next _ v
    | ok i => exact exec_setLfsr i s v
  | reset cold w => exact sameButLfsr_refl _
  | cut C point cold w => exact sameButLfsr_refl _

/-- Settles O14: the event taken is the same, and so is all that it does apart from LFSR. -/
theorem lfsrIsUnobservable : Obligations.LfsrIsUnobservable := by
  intro s v
  change SameButLfsr (step s) (step (s.setLfsr v))
  simp only [step, State.setLfsr_events]
  cases s.events with
  | nil => exact sameButLfsr_next s v
  | cons e rest => exact runEvent_setLfsr e (s.setEvents rest) v

/-! ### SCR and DSC: completion, the recurrence, constant messages (R62, R63, R67, R69) -/

/-- Settles O17: the scrambled side of SCR is its output. -/
theorem scrCompletesWithTheScramblerRecurrence : Obligations.ScrCompletesWithTheScramblerRecurrence :=
  fun a b c data s => ⟨_, _, exec_scr a b c data s, xform_length .., fun _ ht => bitAt_xform .scramble a b c data ht⟩

/-- Settles O18: the scrambled side of DSC is its input. -/
theorem dscCompletesWithTheDescramblerRecurrence : Obligations.DscCompletesWithTheDescramblerRecurrence :=
  fun a b c data s => ⟨_, _, exec_dsc a b c data s, xform_length .., fun _ ht => bitAt_xform .descramble a b c data ht⟩

/-- A byte that leaves the register and itself as they were does so any number of times. -/
theorem bytesStep_replicate {mode : ScrMode} {s : Lfsr} {B : Byte} (h : byteStep mode s B = (s, B)) (n : Nat) :
    bytesStep mode s (List.replicate n B) = (s, List.replicate n B) := by
  induction n with
  | zero => rfl
  | succ n ih => simp only [List.replicate_succ, bytesStep_cons, h, ih]

/-- Settles O23: a zero byte under the zero register and a byte FF under the register of ones change nothing. -/
theorem constantMessagesUnderConstantSeeds : Obligations.ConstantMessagesUnderConstantSeeds := by
  intro mode n
  have zeros : byteStep mode (lfsrInit 0x00 0x00 0x00) 0x00 = (lfsrInit 0x00 0x00 0x00, 0x00) := by
    cases mode <;> decide
  have ones : byteStep mode (lfsrInit 0xFF 0xFF 0xFF) 0xFF = (lfsrInit 0xFF 0xFF 0xFF, 0xFF) := by
    cases mode <;> decide
  refine ⟨fun _ _ _ => ⟨rfl, rfl⟩, ?_, ?_, ?_, ?_⟩
  · exact congrArg Prod.snd (bytesStep_replicate zeros n)
  · exact congrArg Prod.fst (bytesStep_replicate zeros n)
  · exact congrArg Prod.snd (bytesStep_replicate ones n)
  · exact congrArg Prod.fst (bytesStep_replicate ones n)

/-! ### A reset after Persist (log 9) -/

theorem cutNv_afterPersist {C : List Byte} {s : State} {m : Memory} (h : commandPlan C s.reg = some (.commit m)) :
    cutNv C .afterPersist s = .ok (nvImage (regRead m)) := by
  simp only [cutNv, h]

/-- Settles O47: the OK answer tells that the command commits, and the reset finds the image committed in NV. -/
theorem resetAfterPersistKeepsTheNewImage : Obligations.ResetAfterPersistKeepsTheNewImage := by
  intro s u C i cold v rest hs hd hm hx hr
  obtain ⟨m, hp, rfl⟩ := commandPlan_commit_of_ok hd hm hx hr
  exact ⟨_, step_cut hs (cutNv_afterPersist hp), fun _ => rfl, rfl⟩

/-! ### The registry as a list (R73, R85) -/

/-- The identifiers of `validEntries`, in order. -/
def validIds (m : Memory) : List (List Byte) := (validEntries m).map entryId

@[simp] theorem validEntries_length (m : Memory) : (validEntries m).length = (countOf m).val := by
  simp only [validEntries, List.length_map, List.length_take, List.length_finRange]
  omega

theorem validEntries_getElem {m : Memory} {k : Nat} (hk : k < (validEntries m).length) :
    (validEntries m)[k] = readSlot m ⟨k, by rw [validEntries_length] at hk; omega⟩ := by
  simp [validEntries]

@[simp] theorem validIds_length (m : Memory) : (validIds m).length = (countOf m).val := by simp [validIds]

theorem validIds_getElem {m : Memory} {k : Nat} (hk : k < (validIds m).length) :
    (validIds m)[k] = entryId (readSlot m ⟨k, by rw [validIds_length] at hk; omega⟩) := by
  simp [validIds, validEntries_getElem]

/-- `find` answers none for an identifier that is not in the list (R74). -/
theorem findId_none_iff_not_mem {m : Memory} {id : List Byte} : findId m id = none ↔ id ∉ validIds m := by
  rw [findId_none, List.mem_iff_getElem]
  constructor
  · rintro h ⟨k, hk, e⟩
    exact h _ (by simpa using hk) ((validIds_getElem hk).symm.trans e)
  · exact fun h j hj e => h ⟨j.val, by simpa using hj, (validIds_getElem _).trans e⟩

/-- R84, said of the list. -/
theorem noDup_iff_nodup {m : Memory} : NoDup m ↔ (validIds m).Nodup := by
  rw [List.Nodup, List.pairwise_iff_getElem]
  constructor
  · intro h i j hi hj hij
    rw [validIds_getElem, validIds_getElem]
    exact h _ _ hij (by simpa using hj)
  · intro h j k hjk hk
    have hj : j.val < (countOf m).val := by omega
    have hne := h j.val k.val (by simpa using hj) (by simpa using hk) hjk
    rwa [validIds_getElem, validIds_getElem] at hne

/-- A blank image is well-formed and lists nothing. -/
theorem blank_image {m : Memory} (h : ∀ a, regRead m a = Config.terminator) : imageWF m = true ∧ countOf m = 0 :=
  imageWF_and_countOf_of_wfAt ⟨fun k hk => absurd hk (Nat.not_lt_zero k.val), fun a _ => h a⟩

theorem validIds_of_blank {m : Memory} (h : ∀ a, regRead m a = Config.terminator) : validIds m = [] := by
  rw [← List.length_eq_zero_iff, validIds_length, (blank_image h).2]
  rfl

/-- RWR puts its entry at the end of the list. -/
theorem validEntries_append {m : Memory} (hw : imageWF m = true) (hc : (countOf m).val < 20) {e : Entry}
    (he : e.id0 ≠ Config.terminator) :
    validEntries (writeSlot m ⟨(countOf m).val, hc⟩ e) = validEntries m ++ [e] := by
  have hcount := (append_spec hw hc he).2
  refine List.ext_getElem (by simp [hcount]) fun k hk _ => ?_
  rw [validEntries_length, hcount] at hk
  rw [validEntries_getElem, readSlot_writeSlot]
  by_cases h : k < (countOf m).val
  · rw [if_neg (Fin.ne_of_gt h), List.getElem_append_left (by simpa using h), validEntries_getElem]
  · obtain rfl : k = (countOf m).val := by omega
    rw [if_pos rfl, List.getElem_append_right (by simp)]
    simp

section Compact

variable {m : Memory} {p j : SlotIdx} {c : Count}

theorem readSlot_compact_of_lt (hp : p.val < c.val) (hj : j.val < p.val) :
    readSlot (compact m p c) j = readSlot m j := by
  rw [readSlot_compact, if_neg (by omega), dif_neg (by omega)]

theorem readSlot_compact_of_le (hp : p.val ≤ j.val) (hj : j.val + 1 < c.val) :
    readSlot (compact m p c) j = readSlot m ⟨j.val + 1, by omega⟩ := by
  rw [readSlot_compact, if_neg (by omega), dif_pos ⟨hp, hj⟩]

/-- RER takes its entry out of the list. -/
theorem validEntries_compact (hw : imageWF m = true) (hp : p.val < (countOf m).val) :
    validEntries (compact m p (countOf m)) = (validEntries m).eraseIdx p.val := by
  have hcount := (compact_spec hw hp).2
  refine List.ext_getElem ?_ fun k hk _ => ?_
  · rw [validEntries_length, hcount, List.length_eraseIdx_of_lt (by simpa using hp), validEntries_length]
  · rw [validEntries_length, hcount] at hk
    rw [validEntries_getElem, List.getElem_eraseIdx]
    split
    · rw [readSlot_compact_of_lt hp ‹_›, validEntries_getElem]
    · rw [readSlot_compact_of_le (Nat.le_of_not_lt ‹_›) (by simp only; omega), validEntries_getElem]

theorem validIds_compact (hw : imageWF m = true) (hp : p.val < (countOf m).val) :
    validIds (compact m p (countOf m)) = (validIds m).eraseIdx p.val := by
  rw [validIds, validEntries_compact hw hp, ← List.eraseIdx_map]
  rfl

end Compact

/-! ### RWR and RER that answer OK (R76, R78) -/

/-- The entry that RWR of `id` appends (R76). -/
def Appends (id : List Byte) (e : Entry) : Prop :=
  entryId e = id ∧ entryBytes e = id ++ [Config.typeDefault] ∧ e.id0 ≠ Config.terminator

/-- A command that answers OK and only answers does not mutate. -/
theorem not_mutates_of_addResponse_ok {i : Instr} {s : State} {r : List Byte} (h : mutates i = true → r ≠ [0x00])
    (hr : (s.addResponse r).responses = s.responses ++ [[0x00]]) : mutates i = false :=
  Bool.eq_false_iff.mpr fun hm => h hm (by simpa using hr)

section AnswersOk

variable {id : List Byte} {s t : State}

theorem exec_rwr_ok (h : exec (.rwr id) s = .next t) (hr : t.responses = s.responses ++ [[0x00]]) :
    imageWF s.reg = true ∧ findId s.reg id = none ∧ ∃ (e : Entry) (hc : (countOf s.reg).val < 20), Appends id e ∧
      t = commitState s (writeSlot s.reg ⟨(countOf s.reg).val, hc⟩ e) := by
  obtain ⟨r, rfl, hm, -⟩ | ⟨v, out, -, hv⟩ | ⟨a, b, c, d, hi, ha, hw, hf, hc, rfl⟩ | ⟨_, p, hi, -⟩ := exec_next h
  · cases not_mutates_of_addResponse_ok hm hr
  · cases hv
  · obtain rfl := Instr.rwr.inj hi
    exact ⟨hw, hf, _, hc, ⟨rfl, rfl, ha⟩, rfl⟩
  · cases hi

theorem exec_rer_ok (h : exec (.rer id) s = .next t) (hr : t.responses = s.responses ++ [[0x00]]) :
    id.length = 4 ∧ imageWF s.reg = true ∧ ∃ p, findId s.reg id = some p ∧
      t = commitState s (compact s.reg p (countOf s.reg)) := by
  obtain ⟨r, rfl, hm, -⟩ | ⟨v, out, -, hv⟩ | ⟨a, b, c, d, hi, -⟩ | ⟨_, p, hi, hl, hw, hf, rfl⟩ := exec_next h
  · cases not_mutates_of_addResponse_ok hm hr
  · cases hv
  · cases hi
  · obtain rfl := Instr.rer.inj hi
    exact ⟨hl, hw, p, hf, rfl⟩

end AnswersOk

/-- Settles O37: what RWR and RER that answer OK do to the list; any other answer leaves REG as it was. -/
theorem registryRefinesAList : Obligations.RegistryRefinesAList := by
  intro i s t h
  refine ⟨fun id hi hr => ?rwr, fun id hi hr => ?rer, fun hn => ?others⟩
  case rwr =>
    subst hi
    obtain ⟨hw, -, e, hc, ⟨-, hbytes, he⟩, rfl⟩ := exec_rwr_ok h hr
    exact ⟨e, hbytes, validEntries_append hw hc he⟩
  case rer =>
    subst hi
    obtain ⟨-, hw, p, hf, rfl⟩ := exec_rer_ok h hr
    exact ⟨p, hf, validEntries_compact hw (findId_some.mp hf).1.1⟩
  case others =>
    obtain ⟨hm, hr, -⟩ | ⟨-, hreg, -⟩ := exec_durable_or_same h
    · simp [hm, hr] at hn
    · rw [hreg]

/-- Settles O41, from what each command does to the list. -/
theorem typeByteIsWrittenOnce : Obligations.TypeByteIsWrittenOnce := by
  intro i s t h e he
  obtain ⟨hm, hr, -⟩ | ⟨-, hreg, -⟩ := exec_durable_or_same h
  · cases i with
    | scr | dsc | rpo | rct | rrd => cases hm
    | rwr id =>
      obtain ⟨hw, hf, e', hc, ⟨-, hbytes, he'⟩, rfl⟩ := exec_rwr_ok h hr
      rw [commitState_reg, validEntries_append hw hc he'] at he
      obtain he | he := List.mem_append.mp he
      · exact .inl he
      · obtain rfl := List.mem_singleton.mp he
        exact .inr ⟨id, ⟨(countOf s.reg).val, hc⟩, rfl, hf, hr, rfl, by simp, hbytes⟩
    | rer id =>
      obtain ⟨-, hw, p, hf, rfl⟩ := exec_rer_ok h hr
      rw [commitState_reg, validEntries_compact hw (findId_some.mp hf).1.1] at he
      exact .inl (List.mem_of_mem_eraseIdx he)
  · exact .inl (hreg ▸ he)

theorem validIds_append {m : Memory} (hw : imageWF m = true) (hc : (countOf m).val < 20) {id : List Byte} {e : Entry}
    (he : Appends id e) : validIds (writeSlot m ⟨(countOf m).val, hc⟩ e) = validIds m ++ [id] := by
  obtain ⟨rfl, -, he⟩ := he
  rw [validIds, validEntries_append hw hc he, List.map_append]
  rfl

/-! ### No duplicates (R84) -/

/-- RWR appends an identifier that is absent, and RER takes one out. -/
theorem exec_noDup {i : Instr} {s t : State} (hn : NoDup s.reg) (h : exec i s = .next t) : NoDup t.reg := by
  obtain ⟨hm, hr, -⟩ | ⟨-, hreg, -⟩ := exec_durable_or_same h
  · rw [noDup_iff_nodup] at hn ⊢
    cases i with
    | scr | dsc | rpo | rct | rrd => cases hm
    | rwr id =>
      obtain ⟨hw, hf, e, hc, he, rfl⟩ := exec_rwr_ok h hr
      rw [commitState_reg, validIds_append hw hc he, ← List.concat_eq_append, List.nodup_concat]
      exact ⟨findId_none_iff_not_mem.mp hf, hn⟩
    | rer id =>
      obtain ⟨-, hw, p, hf, rfl⟩ := exec_rer_ok h hr
      rw [commitState_reg, validIds_compact hw (findId_some.mp hf).1.1]
      exact hn.sublist (List.eraseIdx_sublist ..)
  · exact hreg ▸ hn

theorem noDup_of_blank {m : Memory} (h : ∀ a, regRead m a = Config.terminator) : NoDup m :=
  noDup_iff_nodup.mpr (validIds_of_blank h ▸ List.nodup_nil)

theorem noDup_runReset_cold (v : Lfsr) (s : State) : NoDup (runReset true v s).reg :=
  noDup_of_blank (congrFun (regRead_runReset_cold v s))

/-- Settles O36: a command keeps the list free of duplicates, and a cold reset empties it. -/
theorem noDuplicatesArePreserved : Obligations.NoDuplicatesArePreserved := by
  refine fun s t h => ⟨fun hn hev => ?kept, fun v rest hs => ?cold⟩
  case kept =>
    obtain ⟨-, rfl⟩ | ⟨C, rest, st, -, -, rfl⟩ | ⟨C, rest, i, -, -, hx⟩ | ⟨cold, v, rest, hs, rfl⟩ |
      ⟨C, point, cold, v, rest, m, hs, -, rfl⟩ := step_next h
    · exact hn
    · exact hn
    · exact exec_noDup (s := s.setEvents rest) hn hx
    · obtain rfl : cold = true := hev _ _ hs
      exact noDup_runReset_cold v _
    · obtain rfl : cold = true := hev _ _ hs
      exact noDup_runReset_cold v _
  case cold =>
    obtain rfl := Host.Outcome.next.inj ((step_reset hs).symm.trans h)
    exact noDup_runReset_cold v _

/-- Settles O43: nothing is listed in REG, so each byte is the terminator, and nothing in NV, so each is free. -/
theorem stateAfterFirstBoot : Obligations.StateAfterFirstBoot := by
  have hblank : ∀ a, regRead State.reset.reg a = Config.terminator := regRead_nil
  obtain ⟨hw, hc⟩ := blank_image hblank
  exact ⟨hblank, rfl, fun _ => rfl, ⟨rfl, rfl⟩, wf_of_imageWF hw, congrArg Fin.val hc, noDup_of_blank hblank⟩

/-! ### Issuing a mutation again (R86 b, R112) -/

/-- An identifier removed from a list without duplicates is no longer in it. -/
theorem findId_compact_removed {m : Memory} {id : List Byte} {p : SlotIdx} (hw : imageWF m = true) (hn : NoDup m)
    (hf : findId m id = some p) : findId (compact m p (countOf m)) id = none := by
  obtain ⟨⟨hp, hid⟩, -⟩ := findId_some.mp hf
  have hp' : p.val < (validIds m).length := by simpa using hp
  have hget : (validIds m)[p.val] = id := (validIds_getElem hp').trans hid
  have hnodup := noDup_iff_nodup.mp hn
  rw [findId_none_iff_not_mem, validIds_compact hw hp, ← hnodup.erase_getElem p.val hp', hget]
  exact hnodup.not_mem_erase

/-- Settles O39: what RWR has appended is found, and what RER has removed is not, in an image that is well-formed
again. -/
theorem reissuedMutationsChangeNothing : Obligations.ReissuedMutationsChangeNothing := by
  refine fun s t id hr => ⟨fun h => ?rwr, fun hn h => ?rer⟩
  case rwr =>
    obtain ⟨hw, hf, e, hc, ⟨rfl, -, he⟩, rfl⟩ := exec_rwr_ok h hr
    obtain ⟨-, hpresent, -⟩ := exec_rwr_without_append (id := entryId e)
      (s := commitState s (writeSlot s.reg ⟨(countOf s.reg).val, hc⟩ e)) (wf_of_imageWF (append_spec hw hc he).1)
    exact hpresent rfl (by simp [findId_append hw hc he hf])
  case rer =>
    obtain ⟨hl, hw, p, hf, rfl⟩ := exec_rer_ok h hr
    have hp : p.val < (countOf s.reg).val := (findId_some.mp hf).1.1
    obtain ⟨-, habsent⟩ := exec_rer_without_removal (id := id)
      (s := commitState s (compact s.reg p (countOf s.reg))) (wf_of_imageWF (compact_spec hw hp).1)
    exact habsent hl (findId_compact_removed hw hn hf)

/-! ### Indices after an erase (R118) -/

section Indices

variable {m : Memory} {other : List Byte} {p j : SlotIdx}

theorem findId_compact_of_lt (hw : imageWF m = true) (hp : p.val < (countOf m).val) (hj : findId m other = some j)
    (hjp : j.val < p.val) : findId (compact m p (countOf m)) other = some j := by
  obtain ⟨⟨hjc, hid⟩, hleast⟩ := findId_some.mp hj
  rw [findId_some, (compact_spec hw hp).2, readSlot_compact_of_lt hp hjp]
  refine ⟨⟨by omega, hid⟩, fun k hk => ?_⟩
  rw [readSlot_compact_of_lt hp (by omega)]
  exact hleast k hk

theorem findId_compact_of_gt (hw : imageWF m = true) (hp : p.val < (countOf m).val) (hj : findId m other = some j)
    (hpj : p.val < j.val) : findId (compact m p (countOf m)) other = some ⟨j.val - 1, by omega⟩ := by
  obtain ⟨⟨hjc, hid⟩, hleast⟩ := findId_some.mp hj
  have hj1 : (⟨j.val - 1 + 1, by omega⟩ : SlotIdx) = j := Fin.ext (by simp only; omega)
  rw [findId_some, (compact_spec hw hp).2, readSlot_compact_of_le (by simp only; omega) (by simp only; omega), hj1]
  refine ⟨⟨by simp only; omega, hid⟩, fun k hk => ?_⟩
  simp only at hk
  by_cases hkp : k.val < p.val
  · rw [readSlot_compact_of_lt hp hkp]
    exact hleast k (by omega)
  · rw [readSlot_compact_of_le (by omega) (by omega)]
    exact hleast _ (by simp only; omega)

end Indices

/-- Settles O40: the slots before `p` stay and each later one moves one down, so the least match moves with its slot. -/
theorem indicesMoveOnErase : Obligations.IndicesMoveOnErase := by
  intro s t id other p j h hr hf _ hj
  obtain ⟨-, hw, q, hq, rfl⟩ := exec_rer_ok h hr
  obtain rfl := Option.some.inj (hf.symm.trans hq)
  have hp : p.val < (countOf s.reg).val := (findId_some.mp hf).1.1
  refine ⟨fun hpj => ?_, fun hjp => ?_⟩
  · rw [commitState_reg, findId_compact_of_gt hw hp hj hpj]
    rfl
  · rw [commitState_reg, findId_compact_of_lt hw hp hj hjp]
    rfl

/-! ### Twenty writes (R86 a) -/

/-- RWR of a new identifier on a registry that is not full answers OK and puts it at the end of the list. -/
theorem exec_rwr_of_new {s : State} {id : List Byte} (hw : imageWF s.reg = true) (hl : id.length = 4)
    (ha : id.head? ≠ some 0xFF) (hnew : id ∉ validIds s.reg) (hc : (countOf s.reg).val < 20) :
    ∃ t, exec (.rwr id) s = .next t ∧ t.events = s.events ∧ t.responses = s.responses ++ [[0x00]] ∧
      imageWF t.reg = true ∧ validIds t.reg = validIds s.reg ++ [id] := by
  obtain ⟨a, b, c, d, rfl⟩ := List.length_eq_four.mp hl
  have ha' : a ≠ Config.terminator := fun h => ha (congrArg some h)
  exact ⟨_, execRwr_commit hw (findId_none_iff_not_mem.mpr hnew) hc ha', rfl, rfl, (append_spec hw hc ha').1,
    validIds_append hw hc ⟨rfl, rfl, ha'⟩⟩

theorem step_encode {s : State} {i : Instr} {rest : List Event} (hs : s.events = .command (encode i) :: rest)
    (hi : i.wellFormed = true) : step s = exec i (s.setEvents rest) :=
  stepRunsTheDecodedCommand s _ rest i hs (decodeOfEncode i hi)

/-- An RWR of each of `ids`, in order. -/
def writesOf (ids : List (List Byte)) : List Event := ids.map fun id => .command (encode (.rwr id))

/-- Writes of new identifiers, as many as the registry has room for, all answer OK, and the list grows by them. -/
theorem run_writesOf {ids : List (List Byte)} {s : State} {rest : List Event} (hw : imageWF s.reg = true)
    (hids : ∀ id ∈ ids, id.length = 4 ∧ id.head? ≠ some 0xFF) (hnodup : (validIds s.reg ++ ids).Nodup)
    (hroom : (validIds s.reg ++ ids).length ≤ 20) (hs : s.events = writesOf ids ++ rest) :
    ∃ t : State, (∀ k, Host.Core.run Sys2Proof.core (k + ids.length) s = Host.Core.run Sys2Proof.core k t) ∧
      t.events = rest ∧ t.responses = s.responses ++ List.replicate ids.length [0x00] ∧
      imageWF t.reg = true ∧ validIds t.reg = validIds s.reg ++ ids := by
  induction ids generalizing s with
  | nil => exact ⟨s, fun _ => rfl, hs, by simp, hw, by simp⟩
  | cons id ids ih =>
    obtain ⟨⟨hl, ha⟩, hids⟩ := List.forall_mem_cons.mp hids
    have hnew : id ∉ validIds s.reg := fun h => List.disjoint_of_nodup_append hnodup h List.mem_cons_self
    have hc : (countOf s.reg).val < 20 := by
      rw [List.length_append, validIds_length, List.length_cons] at hroom
      omega
    obtain ⟨u, hu, hue, hur, huw, huv⟩ :=
      exec_rwr_of_new (s := s.setEvents (writesOf ids ++ rest)) hw hl ha hnew hc
    have hstep : step s = .next u := (step_encode hs (decide_eq_true (by omega))).trans hu
    have happ : validIds u.reg ++ ids = validIds s.reg ++ id :: ids := by rw [huv]; simp
    obtain ⟨t, ht, hte, htr, htw, htv⟩ := ih huw hids (happ ▸ hnodup) (happ ▸ hroom) hue
    refine ⟨t, fun k => ?_, hte, ?_, htw, htv.trans happ⟩
    · rw [List.length_cons, ← Nat.add_assoc, core_run_succ _ hstep, ht]
    · rw [htr, hur, List.length_cons, List.replicate_succ]
      simp

section Full

variable {s : State} {id : List Byte} {rest : List Event}

theorem step_rwr_of_full (hs : s.events = .command (encode (.rwr id)) :: rest) (hw : imageWF s.reg = true)
    (hl : id.length = 4) (hnew : id ∉ validIds s.reg) (hc : (countOf s.reg).val = 20) :
    step s = .next ((s.setEvents rest).addResponse [0x03]) := by
  obtain ⟨-, -, hfull, -⟩ := exec_rwr_without_append (id := id) (s := s.setEvents rest) (wf_of_imageWF hw)
  exact (step_encode hs (decide_eq_true (by omega))).trans (hfull hl (findId_none_iff_not_mem.mpr hnew) hc)

theorem step_rct (hs : s.events = .command (encode .rct) :: rest) (hw : imageWF s.reg = true) :
    step s = .next ((s.setEvents rest).addResponse [0x00, BitVec.ofNat 8 (countOf s.reg).val]) := by
  refine (step_encode hs rfl).trans ?_
  obtain ⟨h, -⟩ | ⟨-, e⟩ := execRct_cases (s.setEvents rest)
  · exact absurd (h.symm.trans hw) (by decide)
  · exact e

end Full

/-- Settles O38: after the twenty writes the list is full, so one more answers ERROR and the count is 20. -/
theorem twentyWritesFillTheRegistry : Obligations.TwentyWritesFillTheRegistry := by
  intro s ids extra rest hblank hlen hnodup hids hl hextra hs
  have hempty : validIds s.reg = [] := validIds_of_blank hblank
  obtain ⟨t, hrun, hte, htr, htw, htv⟩ := run_writesOf (blank_image hblank).1 hids (by simpa [hempty] using hnodup)
    (by simp [hempty, hlen]) hs
  rw [hempty, List.nil_append] at htv
  have hc : (countOf t.reg).val = 20 := by rw [← validIds_length, htv, hlen]
  have hextra : step t = .next ((t.setEvents _).addResponse [0x03]) :=
    step_rwr_of_full hte htw hl (htv ▸ hextra) hc
  have hrct := step_rct (s := (t.setEvents (.command (encode .rct) :: rest)).addResponse [0x03]) rfl htw
  rw [State.addResponse_reg, State.setEvents_reg, hc] at hrct
  have h22 := hrun 2
  rw [hlen, core_run_succ 1 hextra, core_run_succ 0 hrct] at h22
  exact ⟨_, h22, rfl, by simp [htr, hlen]⟩

end Sys2Proof.Machine
